-- ==== Sys2Proof/Word.lean ====
section
/-! DEFINITION. The widths of the engine's values: bytes, 32-bit bus words, 64-bit physical lanes. -/

namespace Sys2Proof

/-- One byte of the message or digest stream. -/
abbrev Byte := BitVec 8

/-- A register of the block and a command word: every register is 32 bits wide (20_memory R52, 30_encoding R80). -/
abbrev Word := BitVec 32

/-- A lane as it is physically stored, 64 bits for both widths (10_state R23). -/
abbrev Lane := BitVec 64

end Sys2Proof
end

