-- ==== Sys2Proof/Config.lean ====
section
/-! DEFINITION. The free values: what the spec leaves to the platform's bus and no proof may see. -/

namespace Sys2Proof

/-- What a host read that the bus held when a reset arrived returns: any 32-bit value (93 U3; 70_reset R261).
Applied to `State.freeCount`, so that each such read draws a fresh value.  Log entry 7. -/
opaque Config.heldReadValue : Nat → Word

/-- Whether a host write that the bus held when a reset arrived is performed on the reset state (`true`) or dropped
(`false`): the platform's bus decides, and the model allows both (93 U3; 70_reset R261).  Log entry 7. -/
opaque Config.heldWritePerformed : Nat → Bool

end Sys2Proof
end

