-- ==== Sys2Proof/Syntax.lean ====
section
/-! DEFINITION. The commands: one constructor per row of spec/opcode_table.json. -/

namespace Sys2Proof

/-- The state width an INIT selects and `CFG_W` holds (00_scope R10; 30_encoding R82, field W). -/
inductive Width where
  /-- `W = 0`: Keccak-f[200], 8-bit lanes. -/
  | kpe200
  /-- `W = 1`: Keccak-f[1600], 64-bit lanes. -/
  | kpe1600
  deriving DecidableEq, Repr

/-- The four commands with their assembled operands (30_encoding R82 to R85, R89). -/
inductive Instr where
  /-- INIT: width, capacity in bits, output length in bytes (30_encoding R82; 43_commands R172). -/
  | init (w : Width) (cap : BitVec 11) (outlen : BitVec 16)
  /-- ABSORB of `nb` bytes, 1 to 4 (30_encoding R83, R85; 43_commands R174). -/
  | absorb (nb : Nat)
  /-- FINALIZE (30_encoding R84; 43_commands R180). -/
  | finalize
  /-- SQUEEZE of `nb` bytes, 1 to 4 (30_encoding R83, R85; 43_commands R190). -/
  | squeeze (nb : Nat)
  deriving DecidableEq, Repr

end Sys2Proof
end

