-- ==== Sys2Proof/WellFormed.lean ====
section
/-! DEFINITION. Which terms of `Instr` stand for an encodable command. -/

namespace Sys2Proof

/-- A byte count the field NBM1 can encode: 1 to 4.  "A zero-byte ABSORB or SQUEEZE cannot be encoded" (30_encoding
R85). -/
def byteCountOk (nb : Nat) : Bool := 1 ≤ nb && nb ≤ 4

/-- A command the encoding admits.  INIT's fields are in range by their types (30_encoding R82: no reserved bits);
whether the configuration is a supported one is the engine's check, not the encoding's (43_commands R173). -/
def Instr.wf : Instr → Bool
  | .init _ _ _ => true
  | .absorb nb => byteCountOk nb
  | .finalize => true
  | .squeeze nb => byteCountOk nb

end Sys2Proof
end

