-- ==== Sys2Proof/Decode.lean ====
section
/-! DEFINITION. Decoding a command word (30_encoding R80 to R89), total, rejecting by name; and the encoder. -/

namespace Sys2Proof

/-- Why a word is no command (30_encoding R87, R88); both are the one error ILLEGAL_COMMAND. -/
inductive Illegal where
  /-- Opcode 0x0 or 0x5 to 0xF (30_encoding R87). -/
  | reservedOpcode
  /-- The opcode of ABSORB, SQUEEZE or FINALIZE with a non-zero reserved bit (30_encoding R88). -/
  | reservedBits
  deriving DecidableEq, Repr

/-- The width a W bit selects (30_encoding R82). -/
def widthOfBit (b : Bool) : Width := if b then .kpe1600 else .kpe200

/-- The W bit of a width (30_encoding R82). -/
def widthBit : Width → BitVec 1
  | .kpe200 => 0
  | .kpe1600 => 1

/-- Field OP, bits [3:0] (30_encoding R81). -/
def opField (cmd : Word) : BitVec 4 := cmd.extractLsb' 0 4

/-- Field W, bit [4], of format I (30_encoding R82). -/
def wField (cmd : Word) : Bool := cmd.getLsbD 4

/-- Field CAP, bits [15:5], of format I (30_encoding R82). -/
def capField (cmd : Word) : BitVec 11 := cmd.extractLsb' 5 11

/-- Field OUTLEN, bits [31:16], of format I (30_encoding R82). -/
def outlenField (cmd : Word) : BitVec 16 := cmd.extractLsb' 16 16

/-- The operand `nb` of format N: `zext_3(cmd[5:4]) + 1` (30_encoding R83, R85). -/
def nbField (cmd : Word) : Nat := (cmd.extractLsb' 4 2).toNat + 1

/-- The reserved bits [31:6] of format N (30_encoding R83). -/
def reservedN (cmd : Word) : BitVec 26 := cmd.extractLsb' 6 26

/-- The reserved bits [31:4] of format Z (30_encoding R84). -/
def reservedZ (cmd : Word) : BitVec 28 := cmd.extractLsb' 4 28

/-- Decode (30_encoding R89): one of the four commands, or the reason the word is illegal.  Total on all 2^32 words. -/
def decode (cmd : Word) : Except Illegal Instr :=
  if opField cmd = 0x1 then .ok (.init (widthOfBit (wField cmd)) (capField cmd) (outlenField cmd))
  else if opField cmd = 0x2 then
    if reservedN cmd = 0 then .ok (.absorb (nbField cmd)) else .error .reservedBits
  else if opField cmd = 0x3 then
    if reservedZ cmd = 0 then .ok .finalize else .error .reservedBits
  else if opField cmd = 0x4 then
    if reservedN cmd = 0 then .ok (.squeeze (nbField cmd)) else .error .reservedBits
  else .error .reservedOpcode

/-- The field NBM1 of a byte count: the number of bytes minus one (30_encoding R83). -/
def nbm1 (nb : Nat) : BitVec 2 := BitVec.ofNat 2 (nb - 1)

/-- The word of a command (30_encoding R82 to R84, R90). -/
def encode : Instr → Word
  | .init w cap outlen => outlen ++ cap ++ widthBit w ++ (0x1 : BitVec 4)
  | .absorb nb => (0 : BitVec 26) ++ nbm1 nb ++ (0x2 : BitVec 4)
  | .finalize => (0 : BitVec 28) ++ (0x3 : BitVec 4)
  | .squeeze nb => (0 : BitVec 26) ++ nbm1 nb ++ (0x4 : BitVec 4)

/-- The instruction the decoder reads from an instruction whose bits are `w`, numbered as the opcode table numbers
them.  A command is one 32-bit word (30_encoding R80), so the bits above `nbits` are zero and those above 32 are none. -/
def decodeTableWord (nbits w : Nat) : Option Instr :=
  match decode (BitVec.ofNat 32 (w % 2 ^ nbits)) with
  | .ok i => some i
  | .error _ => none

end Sys2Proof
end

