-- ==== Sys2Proof/Machine/State.lean ====
section
/-! DEFINITION. The state of the engine (10_state R20), of the hosts and platform around it, and the reasons a step stops. -/

namespace Sys2Proof.Machine

/-- `PHASE`: the life cycle of a hash (10_state R24).  "No other value exists." -/
inductive Phase where
  /-- 0: after reset, no hash has been started. -/
  | unconfigured
  /-- 1: a hash is open and accepts input. -/
  | absorbing
  /-- 2: the final permutation is done and output is being read. -/
  | squeezing
  /-- 3: all output bytes have been produced. -/
  | finalized
  deriving DecidableEq, Repr

/-- The codes of `ERR` (10_state R33; 60_exceptions R221). -/
inductive ErrCode where
  /-- 0 NONE: no failure since the last clear. -/
  | none
  /-- 1 INVALID_STATE: a command in the wrong phase, or a SQUEEZE past the output length. -/
  | invalidState
  /-- 2 INVALID_CONFIGURATION: an INIT of an unsupported configuration. -/
  | invalidConfiguration
  /-- 3 ILLEGAL_COMMAND: a word that decodes as no command. -/
  | illegalCommand
  deriving DecidableEq, Repr

/-- The engine's architectural state, exactly the table of 10_state R20. -/
structure Engine where
  /-- `S[0..24]`, lane `A[x,y]` at index `5y + x` (10_state R22, R23). -/
  lanes : Vector Lane 25
  /-- `PHASE` (10_state R24). -/
  phase : Phase
  /-- `CFG_W` (10_state R25). -/
  cfgW : Width
  /-- `CFG_CAP`, capacity in bits (10_state R25). -/
  cfgCap : BitVec 11
  /-- `CFG_OUTLEN`, digest length in bytes (10_state R25). -/
  cfgOutlen : BitVec 16
  /-- `BUF[0..167]`, the absorb buffer (10_state R27). -/
  buf : Vector Byte 168
  /-- `BUFCNT`, bytes held in `BUF` (10_state R28). -/
  bufcnt : BitVec 8
  /-- `CUR`, the squeeze cursor (10_state R29). -/
  cur : BitVec 8
  /-- `OUTCNT`, digest bytes produced (10_state R30). -/
  outcnt : BitVec 16
  /-- `DIN`, the input data word (10_state R31). -/
  din : Word
  /-- `DOUT`, the output data word (10_state R32). -/
  dout : Word
  /-- `ERR`, the first error since the last clear (10_state R33). -/
  err : ErrCode
  deriving DecidableEq, Repr

/-- The registers of the block, by offset (20_memory R51). -/
inductive Reg where
  /-- offset 0x00. -/
  | cmd
  /-- offset 0x04. -/
  | din
  /-- offset 0x08. -/
  | dout
  /-- offset 0x0C. -/
  | status
  /-- offset 0x10. -/
  | config
  /-- offset 0x14. -/
  | outcnt
  /-- offset 0x18, reserved (20_memory R63). -/
  | reserved18
  /-- offset 0x1C, reserved (20_memory R63). -/
  | reserved1C
  deriving DecidableEq, Repr

/-- How many bits a host access moves; only 32 has a meaning (20_memory R52). -/
inductive AccessWidth where
  | bits8
  | bits16
  | bits32
  | bits64
  deriving DecidableEq, Repr

/-- What a host access does.  `v` is the 32-bit value of a 32-bit write; a write of another width is refused whatever
it carries (20_memory R52). -/
inductive AccessKind where
  | read
  | write (v : Word)
  deriving DecidableEq, Repr

/-- One access a host issues: a host physical address, a width, a read or a write (20_memory R50 to R54). -/
structure Access where
  addr : Nat
  width : AccessWidth
  kind : AccessKind
  deriving DecidableEq, Repr

/-- Which agent moves next.  A list of turns is the one total order in which the accesses of all hosts and the resets of
the platform reach the block (20_memory R68; 60_exceptions R233; 70_reset R261).  Log entry 1. -/
inductive Turn where
  /-- Host `h` (its index in `State.hosts`) has its oldest pending access performed. -/
  | host (h : Nat)
  /-- The platform resets the block between two accesses (70_reset R260, R261). -/
  | reset
  /-- The platform resets the block while the command of host `h`'s oldest pending access (a CMD write) runs and the bus
  holds the oldest pending accesses of the hosts `held`, in that order (70_reset R261; 20_memory R65). -/
  | resetDuring (h : Nat) (held : List Nat)
  deriving DecidableEq, Repr

/-- One value a host has read, from a stated register (00_scope R18). -/
structure Observation where
  host : Nat
  reg : Reg
  value : Word
  deriving DecidableEq, Repr

/-- The whole machine: the engine, and around it the hosts' pending accesses and the platform.  Plain data. -/
structure State where
  /-- The engine's own registers (10_state R20). -/
  engine : Engine
  /-- `KPE_BASE`, the platform's parameter (20_memory R50); no step changes it.  Log entry 2. -/
  kpeBase : Nat
  /-- One queue of pending accesses for each host, oldest first (20_memory R67); its length is `N_HOSTS` (00_scope R13).
  Log entry 3. -/
  hosts : List (List Access)
  /-- The turns still to come (20_memory R68).  The model's own field.  Log entry 1. -/
  schedule : List Turn
  /-- Every value a host has read, oldest first (00_scope R18).  The model's own field.  Log entry 8. -/
  observed : List Observation
  /-- How many free values have been drawn (93 U3).  The model's own field.  Log entry 7. -/
  freeCount : Nat
  deriving DecidableEq, Repr

/-- The machine has no faults: "The engine raises no traps and no interrupts", a failed command is recorded in `ERR` and
the engine "never stops accepting commands" (60_exceptions R220).  Nobody raises one; safe. -/
inductive Fault where
  deriving DecidableEq, Repr

/-- Why the model has no step. -/
inductive Refusal where
  /-- Raised by `exec` for a command whose meaning is not written yet; safe.  No arm uses it. -/
  | notModelled (mnemonic : String)
  /-- Raised by the bus for a host access of 8, 16 or 64 bits: "it has no step, and the host agent that issued it is
  stuck" (20_memory R52; 93 U1); safe. -/
  | accessWidth
  /-- Raised by the bus for a 32-bit access in the block whose address is no multiple of 4 from `KPE_BASE`: "no step, host
  stuck" (20_memory R53; 93 U2); safe. -/
  | accessMisaligned
  /-- Raised by the bus for an access outside the 32 bytes of the block: the engine "fixes nothing of the host address
  space beyond its own 32-byte block" (20_memory R66); safe.  Log entry 6. -/
  | accessOutsideBlock
  deriving DecidableEq, Repr

/-- The engine right after reset: every register 0, `PHASE` UNCONFIGURED, `ERR` NONE (10_state R37; 70_reset R260). -/
def Engine.reset : Engine where
  lanes := Vector.replicate 25 0
  phase := .unconfigured
  cfgW := .kpe200
  cfgCap := 0
  cfgOutlen := 0
  buf := Vector.replicate 168 0
  bufcnt := 0
  cur := 0
  outcnt := 0
  din := 0
  dout := 0
  err := .none

/-- The machine after power-on reset: the engine as the spec says, one host with nothing pending, base address 0 (log
entries 2, 3). -/
def State.reset : State where
  engine := Engine.reset
  kpeBase := 0
  hosts := [[]]
  schedule := []
  observed := []
  freeCount := 0

end Sys2Proof.Machine
end

