-- ==== Sys2Proof/Machine/Operands.lean ====
section
/-! DEFINITION. Operands that come from and go to the data registers, byte `j` at bits `8j+7:8j` (20_memory R58). -/

namespace Sys2Proof.Machine

/-- Byte `j` of a word: `v[8j+7:8j]` (00_scope R14; 20_memory R58). -/
def wordByte (v : Word) (j : Nat) : Byte := v.extractLsb' (8 * j) 8

/-- The bytes an ABSORB of `nb` bytes takes from `DIN`, in order `j = 0, 1, …` (43_commands R174). -/
def dinBytes (nb : Nat) (din : Word) : List Byte := (List.range nb).map (wordByte din)

/-- The word whose byte `j` is the `j`-th byte of the list, bytes past the list's end 0 (43_commands R190; 20_memory
R58). -/
def packWord : List Byte → Word
  | [] => 0
  | b :: bs => (packWord bs <<< 8) ||| b.setWidth 32

end Sys2Proof.Machine
end

