-- ==== Sys2Proof/Machine/Params.lean ====
section
/-! DEFINITION. The parameters of the two configurations (00_scope R10; 10_state R26). -/

namespace Sys2Proof.Machine

/-- `w`, the lane width in bits. -/
def laneBits : Width → Nat
  | .kpe200 => 8
  | .kpe1600 => 64

/-- `NR`, the number of rounds. -/
def rounds : Width → Nat
  | .kpe200 => 18
  | .kpe1600 => 24

/-- `R`, the rate in bytes. -/
def rateBytes : Width → Nat
  | .kpe200 => 4
  | .kpe1600 => 168

/-- `LB`, bytes per lane. -/
def laneBytes (c : Width) : Nat := laneBits c / 8

/-- `c`, the one legal capacity of a width, in bits (00_scope R10). -/
def legalCapacity : Width → BitVec 11
  | .kpe200 => 168
  | .kpe1600 => 256

/-- `ValidConfig` (43_commands R173): a supported (width, capacity) pair and an output length of at least 1.  The bound
`OUTLEN·8 ≤ CAP/2` is not checked (90_conflicts C3). -/
def validConfig (w : Width) (cap : BitVec 11) (outlen : BitVec 16) : Bool :=
  ((w = .kpe200 && cap = 168) || (w = .kpe1600 && cap = 256)) && 1 ≤ outlen.toNat

end Sys2Proof.Machine
end

