-- ==== Sys2Proof/Machine/Tables.lean ====
section
/-! DEFINITION. The constants of the datapath: rotation offsets (40_permutation R105), round constants (R111), and the
recurrences that generate both (R106, R112). -/

namespace Sys2Proof.Machine

/-- The two tables of 40_permutation R105 laid over each other: row `y`, column `x` holds `ρ_64[x,y]` and `ρ_8[x,y]`. -/
def rhoOffsets : List (List (Nat × Nat)) :=
  [[(0, 0), (1, 1), (62, 6), (28, 4), (27, 3)],
   [(36, 4), (44, 4), (6, 6), (55, 7), (20, 4)],
   [(3, 3), (10, 2), (43, 3), (25, 1), (39, 7)],
   [(41, 1), (45, 5), (15, 7), (21, 5), (8, 0)],
   [(18, 2), (2, 2), (61, 5), (56, 0), (14, 6)]]

/-- `ρ_w[x,y]` (40_permutation R105). -/
def rhoOffset (c : Width) (x y : Fin 5) : Nat :=
  let entry := (rhoOffsets.getD y.val []).getD x.val (0, 0)
  match c with
  | .kpe200 => entry.2
  | .kpe1600 => entry.1

/-- The table of 40_permutation R111, row `ir` by row: `RC_64[ir]`, and `RC_8[ir]` in the rows KPE-200 uses. -/
def roundConstants : List (Lane × Option Byte) :=
  [(0x0000000000000001, some 0x01),
   (0x0000000000008082, some 0x82),
   (0x800000000000808A, some 0x8A),
   (0x8000000080008000, some 0x00),
   (0x000000000000808B, some 0x8B),
   (0x0000000080000001, some 0x01),
   (0x8000000080008081, some 0x81),
   (0x8000000000008009, some 0x09),
   (0x000000000000008A, some 0x8A),
   (0x0000000000000088, some 0x88),
   (0x0000000080008009, some 0x09),
   (0x000000008000000A, some 0x0A),
   (0x000000008000808B, some 0x8B),
   (0x800000000000008B, some 0x8B),
   (0x8000000000008089, some 0x89),
   (0x8000000000008003, some 0x03),
   (0x8000000000008002, some 0x02),
   (0x8000000000000080, some 0x80),
   (0x000000000000800A, none),
   (0x800000008000000A, none),
   (0x8000000080008081, none),
   (0x8000000000008080, none),
   (0x0000000080000001, none),
   (0x8000000080008008, none)]

/-- `RC_w[ir]` (40_permutation R111).  Only `ir < NR` is ever used (R114). -/
def roundConstant : (c : Width) → Nat → BitVec (laneBits c)
  | .kpe200, ir => (roundConstants.getD ir (0, none)).2.getD 0
  | .kpe1600, ir => (roundConstants.getD ir (0, none)).1

/-- One step of the 9-bit LFSR register `Rg` (40_permutation R112). -/
def lfsrStep (rg : BitVec 9) : BitVec 9 :=
  if (rg <<< 1).getLsbD 8 then (rg <<< 1) ^^^ 0x171 else rg <<< 1

/-- `rc(t)`, one bit of the generator (40_permutation R112). -/
def rcBit (t : Nat) : Bool :=
  if t % 255 = 0 then true else ((List.range (t % 255)).foldl (fun rg _ => lfsrStep rg) (1 : BitVec 9)).getLsbD 0

/-- The generated round constant: bits `2^j - 1` for `j ≤ l`, set from `rc(j + 7·ir)` (40_permutation R112). -/
def rcGenerated (l ir : Nat) : Nat :=
  ((List.range (l + 1)).map fun j => (rcBit (j + 7 * ir)).toNat * 2 ^ (2 ^ j - 1)).sum

/-- The walk of 40_permutation R106: positions and offsets from step `t` at `(x, y)`, `n` steps. -/
def rhoWalk (w : Nat) : (n t : Nat) → (x y : Fin 5) → List (Fin 5 × Fin 5 × Nat)
  | 0, _, _, _ => []
  | n + 1, t, x, y => (x, y, ((t + 1) * (t + 2) / 2) % w) :: rhoWalk w n (t + 1) y (2 * x + 3 * y)

/-- The generated offsets: `(0,0)` has 0, and 24 steps from `(1,0)` (40_permutation R106). -/
def rhoGenerated (w : Nat) : List (Fin 5 × Fin 5 × Nat) :=
  (0, 0, 0) :: rhoWalk w 24 0 1 0

end Sys2Proof.Machine
end

