-- ==== Sys2Proof/Machine/Permutation.lean ====
section
/-! DEFINITION. The round steps and Keccak-f (40_permutation R100 to R117), on grids of 25 lanes of any width. -/

namespace Sys2Proof.Machine

/-- 25 lanes of `w` bits, `A[x,y]` at index `5y + x` (00_scope R15). -/
abbrev Grid (w : Nat) := Vector (BitVec w) 25

/-- Lane `A[x,y]`: index `5y + x` (00_scope R15), which is always below 25. -/
def lane {w : Nat} (A : Grid w) (x y : Fin 5) : BitVec w := A.toList.getD (5 * y.val + x.val) 0

/-- The grid whose lane at `(x,y)` is `f x y`, rows `y` of columns `x`. -/
def ofLanes {w : Nat} (f : Fin 5 → Fin 5 → BitVec w) : Grid w :=
  #v[f 0 0, f 1 0, f 2 0, f 3 0, f 4 0,
    f 0 1, f 1 1, f 2 1, f 3 1, f 4 1,
    f 0 2, f 1 2, f 2 2, f 3 2, f 4 2,
    f 0 3, f 1 3, f 2 3, f 3 3, f 4 3,
    f 0 4, f 1 4, f 2 4, f 3 4, f 4 4]

/-- `C[x]`, the parity of column `x` (40_permutation R103). -/
def columnParity {w : Nat} (A : Grid w) (x : Fin 5) : BitVec w :=
  lane A x 0 ^^^ lane A x 1 ^^^ lane A x 2 ^^^ lane A x 3 ^^^ lane A x 4

/-- θ (40_permutation R103): the columns `x − 1` and `x + 1`, the second rotated by one (90_conflicts C1). -/
def theta {w : Nat} (A : Grid w) : Grid w :=
  ofLanes fun x y => lane A x y ^^^ (columnParity A (x - 1) ^^^ (columnParity A (x + 1)).rotateLeft 1)

/-- ρ (40_permutation R104): each lane rotated left by its offset. -/
def rho (c : Width) (A : Grid (laneBits c)) : Grid (laneBits c) :=
  ofLanes fun x y => (lane A x y).rotateLeft (rhoOffset c x y)

/-- π (40_permutation R107): the lane at `(x,y)` moves to `(y, 2x + 3y)`.  Read from the destination: `(x,y)` receives
the lane of `(x + 3y, x)`, since `2(x + 3y) + 3x = y` mod 5. -/
def pi {w : Nat} (A : Grid w) : Grid w := ofLanes fun x y => lane A (x + 3 * y) x

/-- χ (40_permutation R109). -/
def chi {w : Nat} (B : Grid w) : Grid w :=
  ofLanes fun x y => lane B x y ^^^ (~~~(lane B (x + 1) y) &&& lane B (x + 2) y)

/-- ι (40_permutation R110): the round constant into lane `(0,0)`. -/
def iota (c : Width) (A : Grid (laneBits c)) (ir : Nat) : Grid (laneBits c) :=
  ofLanes fun x y => if x = 0 ∧ y = 0 then lane A 0 0 ^^^ roundConstant c ir else lane A x y

/-- One round (40_permutation R102): θ, ρ, π, χ, ι in this order. -/
def round (c : Width) (A : Grid (laneBits c)) (ir : Nat) : Grid (laneBits c) :=
  iota c (chi (pi (rho c (theta A)))) ir

/-- `KeccakF` (40_permutation R114): the rounds 0, 1, …, `NR − 1` in that order. -/
def keccakF (c : Width) (A : Grid (laneBits c)) : Grid (laneBits c) :=
  (List.range (rounds c)).foldl (round c) A

/-- `KeccakF` on the physical lanes: the architectural lane is the low `w` bits, and the bits above stay 0
(10_state R23; 40_permutation R116).  Log entry 10. -/
def permute (c : Width) (S : Vector Lane 25) : Vector Lane 25 :=
  (keccakF c (S.map (·.setWidth (laneBits c)))).map (·.setWidth 64)

end Sys2Proof.Machine
end

