-- ==== Sys2Proof/Machine/Sponge.lean ====
section
/-! DEFINITION. The sponge datapath (41_sponge_datapath R140 to R146) and the padding encoder (42_padding R160 to R165). -/

namespace Sys2Proof.Machine

/-- `Byte(S, i)` (41_sponge R142): byte `i mod LB` of lane `i div LB`, least significant first.  An index past the last
lane, which no command uses, reads 0. -/
def stateByte (c : Width) (S : Vector Lane 25) (i : Nat) : Byte :=
  (S.toList.getD (i / laneBytes c) 0).extractLsb' (8 * (i % laneBytes c)) 8

/-- `SetXor(S, i, v)` (41_sponge R142): XOR `v` into state byte `i`. -/
def setXor (c : Width) (S : Vector Lane 25) (i : Nat) (v : Byte) : Vector Lane 25 :=
  S.setIfInBounds (i / laneBytes c)
    ((S.toList.getD (i / laneBytes c) 0) ^^^ (v.setWidth 64 <<< (8 * (i % laneBytes c))))

/-- `XorBlock(S, blk)` (41_sponge R144): for `i` in `0 .. R − 1`, `SetXor(S, i, blk[i])`. -/
def xorBlock (c : Width) (S : Vector Lane 25) (blk : List Byte) : Vector Lane 25 :=
  (List.range (rateBytes c)).foldl (fun S i => setXor c S i (blk.getD i 0)) S

/-- `AbsorbBlock(blk)` (41_sponge R145): the XOR followed by one permutation. -/
def absorbBlock (c : Width) (S : Vector Lane 25) (blk : List Byte) : Vector Lane 25 :=
  permute c (xorBlock c S blk)

/-- `PadBlock(BUF, k)` (42_padding R161): the `R` bytes of the final block, for `k` buffered bytes. -/
def padBlock (c : Width) (buf : List Byte) (k : Nat) : List Byte :=
  (List.range (rateBytes c)).map fun i =>
    if i < k then buf.getD i 0
    else if k = rateBytes c - 1 then (if i = k then 0x81 else 0x00)
    else if i = k then 0x01
    else if i = rateBytes c - 1 then 0x80
    else 0x00

end Sys2Proof.Machine
end

