-- ==== Sys2Proof/Machine/Ops.lean ====
section
/-! DEFINITION. The operations the commands share: recording an error, one byte absorbed, one byte squeezed. -/

namespace Sys2Proof.Machine

/-- `o` and then `f`: the second part runs only on a next state. -/
def andThen {σ φ ρ : Type} (o : Host.Outcome σ φ ρ) (f : σ → Host.Outcome σ φ ρ) : Host.Outcome σ φ ρ :=
  match o with
  | .next s => f s
  | .fault r => .fault r
  | .refused r => .refused r

/-- The effect of a failed command on the engine (60_exceptions R223, R224): the first error is kept, nothing else
changes. -/
def recordError (e : ErrCode) (k : Engine) : Engine :=
  if k.err = .none then { k with err := e } else k

/-- `raise e` (60_exceptions R223): the ONE way an error is taken.  The command ends; the engine goes on (R220, R227).
There is no return from error (R227). -/
def raise (e : ErrCode) (s : State) : Host.Outcome State Fault Refusal :=
  .next { s with engine := recordError e s.engine }

/-- `BUF` with entries `0 .. R − 1` cleared (43_commands R175). -/
def clearBlock (c : Width) (buf : Vector Byte 168) : Vector Byte 168 :=
  Vector.ofFn fun i : Fin 168 => if i.val < rateBytes c then 0 else buf[i.val]

/-- `AbsorbByte(v)` (43_commands R175): the byte goes to `BUF[BUFCNT]`, and a full buffer is absorbed and cleared.
A count outside `[0, R)`, which no run reaches (10_state R28), is log entry 9. -/
def absorbByte (v : Byte) (k : Engine) : Engine :=
  let buf := k.buf.setIfInBounds k.bufcnt.toNat v
  let cnt := k.bufcnt + 1
  if cnt.toNat = rateBytes k.cfgW then
    { k with
      lanes := absorbBlock k.cfgW k.lanes (buf.toList.take (rateBytes k.cfgW))
      buf := clearBlock k.cfgW buf
      bufcnt := 0 }
  else { k with buf := buf, bufcnt := cnt }

/-- `AbsorbByte` for each byte of a list, in order (43_commands R174). -/
def absorbBytes (vs : List Byte) (k : Engine) : Engine :=
  vs.foldl (fun k v => absorbByte v k) k

/-- The permutation `SqueezeByte` runs when the current block is exhausted (43_commands R191). -/
def refillBlock (k : Engine) : Engine :=
  if k.cur.toNat = rateBytes k.cfgW then { k with lanes := permute k.cfgW k.lanes, cur := 0 } else k

/-- `SqueezeByte()` (43_commands R191): the next output byte, and the engine after it. -/
def squeezeByte (k : Engine) : Byte × Engine :=
  let k := refillBlock k
  (stateByte k.cfgW k.lanes k.cur.toNat, { k with cur := k.cur + 1 })

/-- `n` calls of `SqueezeByte()`: the bytes in order, and the engine after them (43_commands R190). -/
def squeezeBytes : Nat → Engine → List Byte × Engine
  | 0, k => ([], k)
  | n + 1, k =>
    ((squeezeByte k).1 :: (squeezeBytes n (squeezeByte k).2).1, (squeezeBytes n (squeezeByte k).2).2)

end Sys2Proof.Machine
end

