-- ==== Sys2Proof/Machine/Absorb.lean ====
section
/-! DEFINITION. ABSORB (43_commands R174, R175). -/

namespace Sys2Proof.Machine

/-- ABSORB (43_commands R174): in ABSORBING, bytes 0 to `nb − 1` of `DIN` join the message; in any other phase,
INVALID_STATE. -/
def execAbsorb (nb : Nat) (s : State) : Host.Outcome State Fault Refusal :=
  if s.engine.phase = .absorbing then
    .next { s with engine := absorbBytes (dinBytes nb s.engine.din) s.engine }
  else raise .invalidState s

end Sys2Proof.Machine
end

