-- ==== Sys2Proof/Machine/Finalize.lean ====
section
/-! DEFINITION. FINALIZE (43_commands R180). -/

namespace Sys2Proof.Machine

/-- The engine after a FINALIZE in ABSORBING (43_commands R180). -/
def finalizeEngine (k : Engine) : Engine :=
  { k with
    lanes := absorbBlock k.cfgW k.lanes (padBlock k.cfgW k.buf.toList k.bufcnt.toNat)
    buf := Vector.replicate 168 0
    bufcnt := 0
    cur := 0
    outcnt := 0
    phase := .squeezing }

/-- FINALIZE (43_commands R180): in ABSORBING, the padded block is absorbed and output begins; in any other phase,
INVALID_STATE. -/
def execFinalize (s : State) : Host.Outcome State Fault Refusal :=
  if s.engine.phase = .absorbing then .next { s with engine := finalizeEngine s.engine }
  else raise .invalidState s

end Sys2Proof.Machine
end

