-- ==== Sys2Proof/Machine/Init.lean ====
section
/-! DEFINITION. INIT (43_commands R172, R173). -/

namespace Sys2Proof.Machine

/-- The engine after an INIT that passes the checks (43_commands R172): everything but `DIN` is written. -/
def initEngine (w : Width) (cap : BitVec 11) (outlen : BitVec 16) (k : Engine) : Engine where
  lanes := Vector.replicate 25 0
  phase := .absorbing
  cfgW := w
  cfgCap := cap
  cfgOutlen := outlen
  buf := Vector.replicate 168 0
  bufcnt := 0
  cur := 0
  outcnt := 0
  din := k.din
  dout := 0
  err := .none

/-- INIT (43_commands R172): legal in every phase; an unsupported configuration raises INVALID_CONFIGURATION. -/
def execInit (w : Width) (cap : BitVec 11) (outlen : BitVec 16) (s : State) : Host.Outcome State Fault Refusal :=
  if validConfig w cap outlen then .next { s with engine := initEngine w cap outlen s.engine }
  else raise .invalidConfiguration s

end Sys2Proof.Machine
end

