-- ==== Sys2Proof/Machine/Squeeze.lean ====
section
/-! DEFINITION. SQUEEZE (43_commands R190 to R192). -/

namespace Sys2Proof.Machine

/-- What SQUEEZE writes after its bytes are read (43_commands R190): `DOUT`, `OUTCNT`, and FINALIZED at the last byte
(R192). -/
def deliver (nb : Nat) (bs : List Byte) (k : Engine) : Engine :=
  { k with
    dout := packWord bs
    outcnt := k.outcnt + BitVec.ofNat 16 nb
    phase := if k.outcnt + BitVec.ofNat 16 nb = k.cfgOutlen then .finalized else k.phase }

/-- The engine after a SQUEEZE of `nb` bytes that passes the checks (43_commands R190). -/
def squeezeEngine (nb : Nat) (k : Engine) : Engine :=
  deliver nb (squeezeBytes nb k).1 (squeezeBytes nb k).2

/-- SQUEEZE (43_commands R190): outside SQUEEZING, or past the configured length, INVALID_STATE and no byte. -/
def execSqueeze (nb : Nat) (s : State) : Host.Outcome State Fault Refusal :=
  if s.engine.phase ≠ .squeezing then raise .invalidState s
  else if s.engine.outcnt.toNat + nb > s.engine.cfgOutlen.toNat then raise .invalidState s
  else .next { s with engine := squeezeEngine nb s.engine }

end Sys2Proof.Machine
end

