-- ==== Sys2Proof/Machine/Dispatch.lean ====
section
/-! DEFINITION. One arm per command (43_commands R170). -/

namespace Sys2Proof.Machine

def exec (i : Instr) (s : State) : Host.Outcome State Fault Refusal :=
  match i with
  | .init w cap outlen => Sys2Proof.Machine.execInit w cap outlen s
  | .absorb nb => Sys2Proof.Machine.execAbsorb nb s
  | .finalize => Sys2Proof.Machine.execFinalize s
  | .squeeze nb => Sys2Proof.Machine.execSqueeze nb s

end Sys2Proof.Machine
end

