-- ==== Sys2Proof/Machine/Flags.lean ====
section
/-! DEFINITION. The status fields `PHASE` and `ERR` (the engine has no arithmetic flags, 10_state R33) and the words
in which hosts read them (20_memory R59 to R61). -/

namespace Sys2Proof.Machine

/-- The 2-bit encoding of `PHASE` (10_state R24). -/
def phaseCode : Phase → BitVec 2
  | .unconfigured => 0
  | .absorbing => 1
  | .squeezing => 2
  | .finalized => 3

/-- The 2-bit encoding of `ERR` (60_exceptions R221). -/
def errCode : ErrCode → BitVec 2
  | .none => 0
  | .invalidState => 1
  | .invalidConfiguration => 2
  | .illegalCommand => 3

/-- `STATUS_VALUE()` (20_memory R59). -/
def statusValue (k : Engine) : Word :=
  (0 : BitVec 8) ++ k.cur ++ k.bufcnt ++ (0 : BitVec 4) ++ errCode k.err ++ phaseCode k.phase

/-- `CONFIG_VALUE()` (20_memory R60): the layout of the INIT word with the opcode field 0. -/
def configValue (k : Engine) : Word :=
  k.cfgOutlen ++ k.cfgCap ++ widthBit k.cfgW ++ (0 : BitVec 4)

/-- What a read of OUTCNT returns: `zext_32(OUTCNT)` (20_memory R61). -/
def outcntValue (k : Engine) : Word := k.outcnt.setWidth 32

end Sys2Proof.Machine
end

