-- ==== Sys2Proof/Machine/Bus.lean ====
section
/-! DEFINITION. The register block and the agents that reach it (20_memory R50 to R69): command execution, host reads and
writes, reset, and whose turn it is. -/

namespace Sys2Proof.Machine

/-- `ExecuteCommand(cmd)` (43_commands R170): decode, then run one whole command; a word that decodes as ILLEGAL raises
ILLEGAL_COMMAND, before any state is looked at (60_exceptions R225). -/
def executeCommand (cmd : Word) (s : State) : Host.Outcome State Fault Refusal :=
  match decode cmd with
  | .ok i => exec i s
  | .error _ => raise .illegalCommand s

/-- The value a 32-bit read of a register returns (20_memory R54 to R63). -/
def memRead (r : Reg) (k : Engine) : Word :=
  match r with
  | .cmd => 0
  | .din => k.din
  | .dout => k.dout
  | .status => statusValue k
  | .config => configValue k
  | .outcnt => outcntValue k
  | .reserved18 => 0
  | .reserved1C => 0

/-- A 32-bit write of `v` to a register (20_memory R54 to R63): CMD runs a command, DIN is set, every other offset ignores
the write. -/
def memWrite (r : Reg) (v : Word) (s : State) : Host.Outcome State Fault Refusal :=
  match r with
  | .cmd => executeCommand v s
  | .din => .next { s with engine := { s.engine with din := v } }
  | .dout => .next s
  | .status => .next s
  | .config => .next s
  | .outcnt => .next s
  | .reserved18 => .next s
  | .reserved1C => .next s

/-- The offset of a register in the block (20_memory R51). -/
def regOffset : Reg → Nat
  | .cmd => 0x00
  | .din => 0x04
  | .dout => 0x08
  | .status => 0x0C
  | .config => 0x10
  | .outcnt => 0x14
  | .reserved18 => 0x18
  | .reserved1C => 0x1C

/-- The register at an offset; none where the offset is no multiple of 4 in the block (20_memory R51, R53). -/
def regAt (off : Nat) : Option Reg :=
  if off = 0x00 then some .cmd
  else if off = 0x04 then some .din
  else if off = 0x08 then some .dout
  else if off = 0x0C then some .status
  else if off = 0x10 then some .config
  else if off = 0x14 then some .outcnt
  else if off = 0x18 then some .reserved18
  else if off = 0x1C then some .reserved1C
  else none

/-- The register an access reaches, or why the model has no step for it: an address outside the 32 bytes of the block
(20_memory R50, R66), a width other than 32 bits (R52), a misaligned address (R53). -/
def target (base : Nat) (a : Access) : Except Refusal Reg :=
  if a.addr < base ∨ base + 32 ≤ a.addr then .error .accessOutsideBlock
  else if a.width ≠ .bits32 then .error .accessWidth
  else
    match regAt (a.addr - base) with
    | some r => .ok r
    | none => .error .accessMisaligned

/-- A host's 32-bit access to register `r`, as it is issued on the bus (20_memory R54; 30_encoding R91). -/
def readOf (base : Nat) (r : Reg) : Access := ⟨base + regOffset r, .bits32, .read⟩

/-- A host's 32-bit write of `v` to register `r` (20_memory R54; 30_encoding R91). -/
def writeOf (base : Nat) (r : Reg) (v : Word) : Access := ⟨base + regOffset r, .bits32, .write v⟩

/-- Host `h` receives `v` from register `r` (00_scope R18). -/
def observe (h : Nat) (r : Reg) (v : Word) (s : State) : State :=
  { s with observed := s.observed ++ [⟨h, r, v⟩] }

/-- One access of host `h` performed as a whole (20_memory R54, R65).  A read changes nothing of the engine (R64). -/
def serve (h : Nat) (a : Access) (s : State) : Host.Outcome State Fault Refusal :=
  match target s.kpeBase a with
  | .error e => .refused e
  | .ok r =>
    match a.kind with
    | .read => .next (observe h r (memRead r s.engine) s)
    | .write v => memWrite r v s

/-- Host `h`'s oldest pending access and the queues without it; none where the host has none pending (20_memory R67). -/
def takeAccess : Nat → List (List Access) → Option (Access × List (List Access))
  | _, [] => none
  | 0, [] :: _ => none
  | 0, (a :: q) :: qs => some (a, q :: qs)
  | h + 1, q :: qs => (takeAccess h qs).map fun p => (p.1, q :: p.2)

/-- Whether an access is a CMD write, the only access that takes time (20_memory R55, R65). -/
def isCommandWrite (base : Nat) (a : Access) : Bool :=
  match target base a, a.kind with
  | .ok .cmd, .write _ => true
  | _, _ => false

/-- What becomes of an access of host `h` that the bus held when the reset arrived (70_reset R261; 93 U3): a read returns
any value, a write is performed on the reset state or dropped, by a free choice. -/
def serveHeld (h : Nat) (a : Access) (s : State) : Host.Outcome State Fault Refusal :=
  match target s.kpeBase a with
  | .error e => .refused e
  | .ok r =>
    match a.kind with
    | .read => .next (observe h r (Config.heldReadValue s.freeCount) { s with freeCount := s.freeCount + 1 })
    | .write v =>
      if Config.heldWritePerformed s.freeCount then memWrite r v { s with freeCount := s.freeCount + 1 }
      else .next { s with freeCount := s.freeCount + 1 }

/-- The held accesses of the hosts in the list, in that order. -/
def serveAllHeld : List Nat → State → Host.Outcome State Fault Refusal
  | [], s => .next s
  | h :: hs, s =>
    match takeAccess h s.hosts with
    | none => serveAllHeld hs s
    | some (a, hosts) => andThen (serveHeld h a { s with hosts := hosts }) (serveAllHeld hs)

/-- Reset of the block (70_reset R260): all of the engine's state; what stands outside the block stays. -/
def resetBlock (s : State) : State := { s with engine := Engine.reset }

/-- One turn (20_memory R65, R68; 70_reset R261).  A host with nothing pending lets its turn pass (log entry 5).  A reset
during a command abandons it, "the state is the reset state", and then the held accesses end; where host `h`'s oldest access is
no CMD write, no command runs, so nothing is abandoned or held. -/
def takeTurn (t : Turn) (s : State) : Host.Outcome State Fault Refusal :=
  match t with
  | .host h =>
    match takeAccess h s.hosts with
    | none => .next s
    | some (a, hosts) => serve h a { s with hosts := hosts }
  | .reset => .next (resetBlock s)
  | .resetDuring h held =>
    match takeAccess h s.hosts with
    | none => .next (resetBlock s)
    | some (a, hosts) =>
      if isCommandWrite s.kpeBase a then serveAllHeld held (resetBlock { s with hosts := hosts })
      else .next (resetBlock s)

/-- The machine's step: the next turn of the schedule; with none to come the engine "is idle and holds its state"
(60_exceptions R242; log entry 5). -/
def advance (s : State) : Host.Outcome State Fault Refusal :=
  match s.schedule with
  | [] => .next s
  | t :: rest => takeTurn t { s with schedule := rest }

/-- An access put in front of host 0's queue; where there is no host, one is added. -/
def pushAccess (a : Access) : List (List Access) → List (List Access)
  | [] => [[a]]
  | q :: qs => (a :: q) :: qs

end Sys2Proof.Machine
end

