-- ==== Sys2Proof/Machine/Step.lean ====
section
/-! DEFINITION. One step of the machine, and how a command is placed so that the next step runs it. -/

namespace Sys2Proof.Machine

/-- One step: one whole access (with a CMD write, one whole command) or one reset (20_memory R65; 70_reset R261, R272). -/
def step (s : State) : Host.Outcome State Fault Refusal := advance s

/-- `s` with a write of the word to CMD as host 0's oldest pending access and the next turn host 0's: the engine fetches
nothing, and a command runs when a host writes CMD (10_state R21; log entry 4). -/
def State.withFetchWord (s : State) (nbits w : Nat) : State :=
  { s with
    hosts := pushAccess (writeOf s.kpeBase .cmd (BitVec.ofNat 32 (w % 2 ^ nbits))) s.hosts
    schedule := .host 0 :: s.schedule }

end Sys2Proof.Machine
end

