-- ==== Sys2Proof/Machine/HostProgram.lean ====
section
/-! DEFINITION. Host programs (30_encoding R91, R92): lists of register accesses, and the pseudo-instructions newhasher,
update and digest that expand to them. -/

namespace Sys2Proof.Machine

/-- One line of a host program (30_encoding R91). -/
inductive HostLine where
  /-- `wr <reg>, <value>`. -/
  | wr (r : Reg) (v : Word)
  /-- `rd <reg>`. -/
  | rd (r : Reg)
  deriving DecidableEq, Repr

/-- The access a line stands for (30_encoding R91). -/
def HostLine.access (base : Nat) : HostLine → Access
  | .wr r v => writeOf base r v
  | .rd r => readOf base r

/-- `wr CMD, <command>` (30_encoding R91). -/
def wrCmd (i : Instr) : HostLine := .wr .cmd (encode i)

/-- `newhasher w=<W>, c=<C>, len=<L>` (30_encoding R92). -/
def newhasher (w : Width) (cap : BitVec 11) (outlen : BitVec 16) : List HostLine := [wrCmd (.init w cap outlen)]

/-- `wr DIN` with up to four bytes, absent bytes 0, and the ABSORB of that many (30_encoding R92). -/
def updateGroup (bs : List Byte) : List HostLine := [.wr .din (packWord bs), wrCmd (.absorb bs.length)]

/-- `update <b0, …>` (30_encoding R92): groups of four bytes, the last one shorter; no bytes, no access. -/
def update : List Byte → List HostLine
  | [] => []
  | [a] => updateGroup [a]
  | [a, b] => updateGroup [a, b]
  | [a, b, c] => updateGroup [a, b, c]
  | a :: b :: c :: d :: rest => updateGroup [a, b, c, d] ++ update rest

/-- The sizes of the SQUEEZEs of a digest of `L` bytes: `min(4, L − 4g)` for `g` in `0 .. ceil(L/4) − 1` (30_encoding
R92). -/
def squeezeSizes (L : Nat) : List Nat := (List.range ((L + 3) / 4)).map fun g => min 4 (L - 4 * g)

/-- A SQUEEZE of each size, each followed by a read of DOUT (30_encoding R92). -/
def squeezeLines (sizes : List Nat) : List HostLine := sizes.flatMap fun k => [wrCmd (.squeeze k), .rd .dout]

/-- `digest` (30_encoding R92): FINALIZE, then a SQUEEZE and a read of DOUT for each group. -/
def digest (L : Nat) : List HostLine := wrCmd .finalize :: squeezeLines (squeezeSizes L)

/-- The bytes in the words read after SQUEEZEs of the given sizes: `t[8j+7:8j]` for `j` in `0 .. k − 1` (30_encoding
R92). -/
def collectBytes (sizes : List Nat) (words : List Word) : List Byte :=
  (sizes.zip words).flatMap fun p => (List.range p.1).map (wordByte p.2)

/-- The digest bytes in the words a `digest` of `L` bytes read (30_encoding R92). -/
def digestBytes (L : Nat) (words : List Word) : List Byte := collectBytes (squeezeSizes L) words

/-- The lines of host `h`'s program, performed in order with no other access between them. -/
def runLines (h : Nat) : List HostLine → State → Host.Outcome State Fault Refusal
  | [], s => .next s
  | l :: ls, s => andThen (serve h (l.access s.kpeBase) s) (runLines h ls)

/-- Accesses of several hosts, performed in the given total order (20_memory R68). -/
def serveAll : List (Nat × Access) → State → Host.Outcome State Fault Refusal
  | [], s => .next s
  | p :: ps, s => andThen (serve p.1 p.2 s) (serveAll ps)

/-- The accesses that the turns of a list of hosts perform, in order, and the queues without them; none where a host's turn
comes with nothing pending. -/
def takeAll : List Nat → List (List Access) → Option (List (Nat × Access) × List (List Access))
  | [], qs => some ([], qs)
  | h :: hs, qs =>
    match takeAccess h qs with
    | none => none
    | some (a, qs') => (takeAll hs qs').map fun p => ((h, a) :: p.1, p.2)

/-- Commands, run one after the other. -/
def runCommands : List Instr → State → Host.Outcome State Fault Refusal
  | [], s => .next s
  | i :: is, s => andThen (exec i s) (runCommands is)

end Sys2Proof.Machine
end

