-- ==== Sys2Proof/Machine/Assembler.lean ====
section
/-! DEFINITION. The written form of commands and host lines (30_encoding R90, R91), as characters.  Log entry 17. -/

namespace Sys2Proof.Machine

/-- A command as it is written, its numbers not yet checked against the fields (30_encoding R90). -/
inductive AsmCommand where
  | init (w c len : Nat)
  | absorb (nb : Nat)
  | finalize
  | squeeze (nb : Nat)
  | word (v : Nat)
  deriving DecidableEq, Repr

/-- The word of a written command; none where "those values do not fit the fields" (30_encoding R90).  A `c` or `len` that
fits but is unsupported is accepted. -/
def assemble : AsmCommand → Option Word
  | .init w c len =>
    if w ≠ 200 ∧ w ≠ 1600 then none
    else if 2047 < c ∨ 65535 < len then none
    else some (encode (.init (if w = 200 then .kpe200 else .kpe1600) (BitVec.ofNat 11 c) (BitVec.ofNat 16 len)))
  | .absorb nb => if byteCountOk nb then some (encode (.absorb nb)) else none
  | .finalize => some (encode .finalize)
  | .squeeze nb => if byteCountOk nb then some (encode (.squeeze nb)) else none
  | .word v => if v < 2 ^ 32 then some (BitVec.ofNat 32 v) else none

/-- A run of letters, digits, dots and underscores, or one other character. -/
inductive Token where
  | text (cs : List Char)
  | mark (c : Char)
  deriving DecidableEq, Repr

/-- Characters that belong to names and numbers. -/
def isTextChar (c : Char) : Bool := c.isAlphanum || c = '.' || c = '_'

/-- Splits a line into tokens; blanks separate and are dropped.  `cur` is the token being read, reversed. -/
def tokenize : (cur : List Char) → List Char → List Token
  | cur, [] => if cur = [] then [] else [.text cur.reverse]
  | cur, c :: cs =>
    if isTextChar c then tokenize (c :: cur) cs
    else
      (if cur = [] then [] else [Token.text cur.reverse]) ++
        (if c = ' ' then tokenize [] cs else .mark c :: tokenize [] cs)

/-- The value of a digit in a base up to 16. -/
def digitValue (base : Nat) (c : Char) : Option Nat :=
  let v :=
    if '0' ≤ c ∧ c ≤ '9' then some (c.toNat - '0'.toNat)
    else if 'a' ≤ c ∧ c ≤ 'f' then some (c.toNat - 'a'.toNat + 10)
    else if 'A' ≤ c ∧ c ≤ 'F' then some (c.toNat - 'A'.toNat + 10)
    else none
  v.bind fun d => if d < base then some d else none

/-- The number a list of digits writes, from the value `acc` of the digits before. -/
def digits (base : Nat) : (acc : Nat) → List Char → Option Nat
  | acc, [] => some acc
  | acc, c :: cs => (digitValue base c).bind fun d => digits base (base * acc + d) cs

/-- A number: decimal, or hexadecimal with a `0x` prefix (30_encoding R90). -/
def number : List Char → Option Nat
  | [] => none
  | '0' :: 'x' :: [] => none
  | '0' :: 'x' :: cs => digits 16 0 cs
  | cs => digits 10 0 cs

/-- Letters in lower case: mnemonics are case-insensitive (30_encoding R90). -/
def lower (cs : List Char) : List Char := cs.map Char.toLower

/-- A written command (30_encoding R90). -/
def parseCommand : List Token → Option AsmCommand
  | .text m :: rest =>
    if lower m = ['i', 'n', 'i', 't'] then
      match rest with
      | [.text ['w'], .mark '=', .text w, .mark ',', .text ['c'], .mark '=', .text c, .mark ',',
          .text ['l', 'e', 'n'], .mark '=', .text len] =>
        (number w).bind fun w => (number c).bind fun c => (number len).map fun len => .init w c len
      | _ => none
    else if lower m = ['a', 'b', 's', 'o', 'r', 'b'] then
      match rest with
      | [.text n] => (number n).map .absorb
      | _ => none
    else if lower m = ['f', 'i', 'n', 'a', 'l', 'i', 'z', 'e'] then
      match rest with
      | [] => some .finalize
      | _ => none
    else if lower m = ['s', 'q', 'u', 'e', 'e', 'z', 'e'] then
      match rest with
      | [.text n] => (number n).map .squeeze
      | _ => none
    else if lower m = ['.', 'w', 'o', 'r', 'd'] then
      match rest with
      | [.text n] => (number n).map .word
      | _ => none
    else none
  | _ => none

/-- The word of a command written as text; none where it is not the syntax, or a value does not fit (30_encoding R90). -/
def assembleText (line : List Char) : Option Word := (parseCommand (tokenize [] line)).bind assemble

/-- A register's name in a host line: one of CMD, DIN, DOUT, STATUS, CONFIG, OUTCNT (30_encoding R91). -/
def registerNamed (cs : List Char) : Option Reg :=
  if cs = ['C', 'M', 'D'] then some .cmd
  else if cs = ['D', 'I', 'N'] then some .din
  else if cs = ['D', 'O', 'U', 'T'] then some .dout
  else if cs = ['S', 'T', 'A', 'T', 'U', 'S'] then some .status
  else if cs = ['C', 'O', 'N', 'F', 'I', 'G'] then some .config
  else if cs = ['O', 'U', 'T', 'C', 'N', 'T'] then some .outcnt
  else none

/-- The value of a `wr`: a number, or with CMD a written command (30_encoding R91). -/
def lineValue (r : Reg) : List Token → Option Word
  | [.text n] =>
    match number n with
    | some v => if v < 2 ^ 32 then some (BitVec.ofNat 32 v) else none
    | none => if r = .cmd then (parseCommand [.text n]).bind assemble else none
  | ts => if r = .cmd then (parseCommand ts).bind assemble else none

/-- A host line, and the name a `rd` binds its value to, if any (30_encoding R91). -/
def parseLine : List Token → Option (HostLine × Option (List Char))
  | .text m :: .text r :: rest =>
    if lower m = ['w', 'r'] then
      match rest with
      | .mark ',' :: ts => (registerNamed r).bind fun r => (lineValue r ts).map fun v => (.wr r v, none)
      | _ => none
    else if lower m = ['r', 'd'] then
      match rest with
      | [] => (registerNamed r).map fun r => (.rd r, none)
      | [.mark '-', .mark '>', .text name] => (registerNamed r).map fun r => (.rd r, some name)
      | _ => none
    else none
  | _ => none

/-- A host line written as text (30_encoding R91). -/
def lineOfText (line : List Char) : Option (HostLine × Option (List Char)) := parseLine (tokenize [] line)

end Sys2Proof.Machine
end

