-- ==== Sys2Proof/Safety.lean ====
section
/-! DEFINITION. The terms claims are stated in: the invariant of 10_state R36, which commands are accepted, and the sponge as
one function of the message. -/

namespace Sys2Proof.Machine

/-- The invariants that hold between any two host accesses (10_state R36), line by line. -/
abbrev Engine.Inv (k : Engine) : Prop :=
  (k.phase = .unconfigured →
    k.cfgW = .kpe200 ∧ k.cfgCap = 0 ∧ k.cfgOutlen = 0 ∧ k.bufcnt = 0 ∧ k.cur = 0 ∧ k.outcnt = 0) ∧
  (k.phase ≠ .unconfigured →
    ((k.cfgW = .kpe200 ∧ k.cfgCap = 168) ∨ (k.cfgW = .kpe1600 ∧ k.cfgCap = 256)) ∧
      1 ≤ k.cfgOutlen.toNat ∧ k.cfgOutlen.toNat ≤ 65535) ∧
  (k.phase = .absorbing → k.bufcnt.toNat ≤ rateBytes k.cfgW - 1 ∧ k.cur = 0 ∧ k.outcnt = 0) ∧
  (k.phase = .squeezing ∨ k.phase = .finalized →
    k.bufcnt = 0 ∧ k.cur.toNat ≤ rateBytes k.cfgW ∧ k.outcnt.toNat ≤ k.cfgOutlen.toNat) ∧
  (k.phase = .squeezing → k.outcnt.toNat < k.cfgOutlen.toNat) ∧
  (k.phase = .finalized → k.outcnt = k.cfgOutlen) ∧
  (∀ i : Fin 168, k.bufcnt.toNat ≤ i.val → k.buf[i.val] = 0) ∧
  (k.cfgW = .kpe200 → ∀ i : Fin 25, k.lanes[i.val].extractLsb' 8 56 = 0)

/-- What the platform owes: a base address that is a multiple of 32 and at least one host (20_memory R50; 00_scope
R13). -/
abbrev State.PlatformOk (s : State) : Prop := s.kpeBase % 32 = 0 ∧ 1 ≤ s.hosts.length

/-- When a command is accepted, which means that it raises no error (43_commands R171, R173, R190). -/
abbrev Accepted (i : Instr) (k : Engine) : Prop :=
  match i with
  | .init w cap outlen => validConfig w cap outlen = true
  | .absorb _ => k.phase = .absorbing
  | .finalize => k.phase = .absorbing
  | .squeeze nb => k.phase = .squeezing ∧ k.outcnt.toNat + nb ≤ k.cfgOutlen.toNat

/-- The error a command that is not accepted raises (60_exceptions R221). -/
def errorOf : Instr → ErrCode
  | .init _ _ _ => .invalidConfiguration
  | .absorb _ => .invalidState
  | .finalize => .invalidState
  | .squeeze _ => .invalidState

/-- The state after a failed command: the first error is kept, nothing else changes (60_exceptions R223, R224). -/
def noteError (e : ErrCode) (s : State) : State :=
  { s with engine := { s.engine with err := if s.engine.err = .none then e else s.engine.err } }

/-- The engine with `DIN` blanked: what two engines share that differ at most in `DIN`, which no command writes (10_state
R31). -/
def Engine.withoutDin (k : Engine) : Engine := { k with din := 0 }

/-- The design of 41_sponge R148 that keeps no buffer, seen from the engine: the buffered bytes already stand in the state. -/
def inPlaceView (k : Engine) : Engine :=
  { k with lanes := xorBlock k.cfgW k.lanes (k.buf.toList.take (rateBytes k.cfgW)), buf := Vector.replicate 168 0 }

/-- `AbsorbByte` of the design of 41_sponge R148: the byte is XORed into state byte `BUFCNT` as it arrives, and the
permutation runs exactly when the block is complete. -/
def inPlaceAbsorbByte (v : Byte) (k : Engine) : Engine :=
  let S := setXor k.cfgW k.lanes k.bufcnt.toNat v
  if k.bufcnt.toNat + 1 = rateBytes k.cfgW then { k with lanes := permute k.cfgW S, bufcnt := 0 }
  else { k with lanes := S, bufcnt := k.bufcnt + 1 }

/-- The state lanes of the design of 41_sponge R148 after FINALIZE: the padding is XORed in, and one permutation runs. -/
def inPlaceFinalLanes (k : Engine) : Vector Lane 25 :=
  permute k.cfgW (setXor k.cfgW (setXor k.cfgW k.lanes k.bufcnt.toNat 0x01) (rateBytes k.cfgW - 1) 0x80)

/-- The multi-rate padding of a message (42_padding R160 to R163): from the first byte after the message to the end of the
block, `0x81` if that is one byte, else `0x01`, zero bytes and `0x80`. -/
def padded (c : Width) (m : List Byte) : List Byte :=
  if m.length % rateBytes c = rateBytes c - 1 then m ++ [0x81]
  else m ++ [0x01] ++ List.replicate (rateBytes c - 2 - m.length % rateBytes c) 0x00 ++ [0x80]

/-- The first `n` blocks of `R` bytes of a byte sequence. -/
def blocks (c : Width) (n : Nat) (p : List Byte) : List (List Byte) :=
  (List.range n).map fun i => (p.drop (i * rateBytes c)).take (rateBytes c)

/-- The sponge state after the whole message: every block of the padded message absorbed into the zero state. -/
def spongeState (c : Width) (m : List Byte) : Vector Lane 25 :=
  (blocks c ((padded c m).length / rateBytes c) (padded c m)).foldl (absorbBlock c) (Vector.replicate 25 0)

/-- Output byte `n` of a sponge state: byte `n mod R` of the block after `n div R` further permutations (43_commands
R191). -/
def outputByte (c : Width) (S : Vector Lane 25) (n : Nat) : Byte :=
  stateByte c ((permute c)^[n / rateBytes c] S) (n % rateBytes c)

/-- The digest of a message as one function: absorb the padded message, squeeze `L` bytes. -/
def spongeDigest (c : Width) (m : List Byte) (L : Nat) : List Byte :=
  (List.range L).map (outputByte c (spongeState c m))

/-- The message bytes that a list of (DIN, nb) pairs delivers, each pair one `wr DIN` and one ABSORB. -/
def chunkBytes (chunks : List (Word × Nat)) : List Byte := chunks.flatMap fun p => dinBytes p.2 p.1

/-- The host lines of a list of (DIN, nb) pairs: a DIN write and an ABSORB for each (30_encoding R92). -/
def chunkLines (chunks : List (Word × Nat)) : List HostLine :=
  chunks.flatMap fun p => [.wr .din p.1, wrCmd (.absorb p.2)]

end Sys2Proof.Machine
end

