-- ==== Sys2Proof/Certificates/Slice0/Obligations.lean ====
section
/-! DEFINITION. The statements for the provers.  Each says what a numbered rule of spec/ says, or what the rules of a section
together give.  Turns, queues of accesses and the list of values read are the model's own fields (log entries 1, 8). -/

open Sys2Proof Sys2Proof.Machine

/-! ## Encoding -/

/-- Every well-formed command's word decodes to the command, with every operand at every value the encoding admits
(30_encoding §1 to §4). -/
def Obligations.DecodeOfEncode : Prop := ∀ i : Instr, i.wf = true → decode (encode i) = .ok i

/-- A word that decodes to a command is the one word of that command, and the command is well-formed: no command has two
words (30_encoding §1 to §4). -/
def Obligations.EncodeOfDecode : Prop :=
  ∀ (cmd : Word) (i : Instr), decode cmd = .ok i → i.wf = true ∧ encode i = cmd

/-- 30_encoding R86: each row's mask and match select the legal words of its command, and every other word is illegal. -/
def Obligations.OpcodeMapSelectsCommands : Prop :=
  ∀ cmd : Word,
    ((∃ w cap len, decode cmd = .ok (.init w cap len)) ↔ cmd &&& 0x0000000F = 0x00000001) ∧
    ((∃ nb, decode cmd = .ok (.absorb nb)) ↔ cmd &&& 0xFFFFFFCF = 0x00000002) ∧
    (decode cmd = .ok .finalize ↔ cmd &&& 0xFFFFFFFF = 0x00000003) ∧
    ((∃ nb, decode cmd = .ok (.squeeze nb)) ↔ cmd &&& 0xFFFFFFCF = 0x00000004) ∧
    ((∃ e, decode cmd = .error e) ↔
      ¬(cmd &&& 0x0000000F = 0x00000001 ∨ cmd &&& 0xFFFFFFCF = 0x00000002 ∨
        cmd &&& 0xFFFFFFFF = 0x00000003 ∨ cmd &&& 0xFFFFFFCF = 0x00000004))

/-- 30_encoding R85: the operands are the unsigned fields, neither sign-extended nor scaled; a byte count is 1 to 4. -/
def Obligations.OperandsAreUnsignedFields : Prop :=
  ∀ cmd : Word,
    (∀ w cap len, decode cmd = .ok (.init w cap len) →
      (w = .kpe1600 ↔ cmd.toNat / 2 ^ 4 % 2 = 1) ∧ cap.toNat = cmd.toNat / 2 ^ 5 % 2 ^ 11 ∧
        len.toNat = cmd.toNat / 2 ^ 16) ∧
    (∀ nb, decode cmd = .ok (.absorb nb) → nb = cmd.toNat / 2 ^ 4 % 4 + 1 ∧ 1 ≤ nb ∧ nb ≤ 4) ∧
    (∀ nb, decode cmd = .ok (.squeeze nb) → nb = cmd.toNat / 2 ^ 4 % 4 + 1 ∧ 1 ≤ nb ∧ nb ≤ 4)

/-- 30_encoding R93: the eight example words decode to their commands. -/
def Obligations.ExampleWordsDecode : Prop :=
  decode 0x00041501 = .ok (.init .kpe200 168 4) ∧ decode 0x00202011 = .ok (.init .kpe1600 256 32) ∧
    decode 0x000A1501 = .ok (.init .kpe200 168 10) ∧ decode 0x00000002 = .ok (.absorb 1) ∧
    decode 0x00000032 = .ok (.absorb 4) ∧ decode 0x00000004 = .ok (.squeeze 1) ∧
    decode 0x00000034 = .ok (.squeeze 4) ∧ decode 0x00000003 = .ok .finalize

/-- 30_encoding R87: opcodes 0x0 and 0x5 to 0xF raise ILLEGAL_COMMAND and have no other effect, in every state. -/
def Obligations.ReservedOpcodeOnlyRecordsIllegal : Prop :=
  ∀ (cmd : Word) (s : State), cmd.toNat % 16 = 0 ∨ 5 ≤ cmd.toNat % 16 →
    executeCommand cmd s = .next (noteError .illegalCommand s)

/-- 30_encoding R88: a non-zero reserved bit in an ABSORB, SQUEEZE or FINALIZE word raises ILLEGAL_COMMAND and has no other
effect; an INIT word is never illegal, and one of an unsupported configuration raises INVALID_CONFIGURATION; the two examples. -/
def Obligations.ReservedBitsOnlyRecordIllegal : Prop :=
  (∀ (cmd : Word) (s : State),
    ((cmd.toNat % 16 = 2 ∨ cmd.toNat % 16 = 4) ∧ cmd.toNat / 64 ≠ 0) ∨ (cmd.toNat % 16 = 3 ∧ cmd.toNat / 16 ≠ 0) →
      executeCommand cmd s = .next (noteError .illegalCommand s)) ∧
  (∀ (cmd : Word) (s : State), cmd.toNat % 16 = 1 →
    ∃ w cap len, decode cmd = .ok (.init w cap len) ∧
      (validConfig w cap len = false → executeCommand cmd s = .next (noteError .invalidConfiguration s))) ∧
  (∃ e, decode 0x00000042 = .error e) ∧ decode 0x00000032 = .ok (.absorb 4)

/-- 30_encoding §5: a written command that fits its fields assembles to a word that decodes to it, and the assembler refuses
values that do not fit. -/
def Obligations.AssembledCommandsDecode : Prop :=
  (∀ c len, c ≤ 2047 → len ≤ 65535 →
    (∃ x, assemble (.init 200 c len) = some x ∧
      decode x = .ok (.init .kpe200 (BitVec.ofNat 11 c) (BitVec.ofNat 16 len))) ∧
    (∃ x, assemble (.init 1600 c len) = some x ∧
      decode x = .ok (.init .kpe1600 (BitVec.ofNat 11 c) (BitVec.ofNat 16 len)))) ∧
  (∀ w c len, (w ≠ 200 ∧ w ≠ 1600) ∨ 2047 < c ∨ 65535 < len → assemble (.init w c len) = none) ∧
  (∀ nb, 1 ≤ nb → nb ≤ 4 →
    (∃ x, assemble (.absorb nb) = some x ∧ decode x = .ok (.absorb nb)) ∧
    (∃ x, assemble (.squeeze nb) = some x ∧ decode x = .ok (.squeeze nb))) ∧
  (∀ nb, nb < 1 ∨ 4 < nb → assemble (.absorb nb) = none ∧ assemble (.squeeze nb) = none) ∧
  assemble .finalize = some 0x00000003 ∧ (∀ v : Word, assemble (.word v.toNat) = some v) ∧
  (∀ v, 2 ^ 32 ≤ v → assemble (.word v) = none)

/-! ## A step and the command it runs -/

/-- 43_commands §1: where the next turn is a host's and its oldest pending access writes a word to CMD, the step is the
command the word decodes to, run on the state without that access and that turn; an illegal word raises ILLEGAL_COMMAND. -/
def Obligations.StepRunsTheDecodedCommand : Prop :=
  ∀ (s : State) (h : Nat) (cmd : Word) (hosts : List (List Access)) (rest : List Turn),
    s.schedule = .host h :: rest → takeAccess h s.hosts = some (writeOf s.kpeBase .cmd cmd, hosts) →
      (∀ i, decode cmd = .ok i → step s = exec i { s with hosts := hosts, schedule := rest }) ∧
      (∀ e, decode cmd = .error e →
        step s = .next (noteError .illegalCommand { s with hosts := hosts, schedule := rest }))

/-- A word placed by `withFetchWord` is what the very next step runs (the model's own loading convention, log entry 4). -/
def Obligations.PlacedWordRunsNext : Prop :=
  ∀ (s : State) (w : Nat) (i : Instr), decodeTableWord 32 w = some i →
    step (s.withFetchWord 32 w) = exec i { s with hosts := if s.hosts = [] then [[]] else s.hosts }

/-- 60_exceptions R220: every command word in every state completes with a next state, and no step ever faults; a word that is
not an accepted command only records its failure in `ERR`, and a read of STATUS shows it in bits 3 and 2. -/
def Obligations.EngineNeverStops : Prop :=
  (∀ (cmd : Word) (s : State), ∃ t, executeCommand cmd s = .next t) ∧
  (∀ (cmd : Word) (s : State), (∃ i, decode cmd = .ok i ∧ Accepted i s.engine) ∨
    ∃ e, e ≠ .none ∧ executeCommand cmd s = .next (noteError e s)) ∧
  (∀ (s : State) (f : Fault), step s ≠ .fault f) ∧
  (∀ k : Engine, (memRead .status k).extractLsb' 2 2 = errCode k.err)

/-! ## INIT -/

/-- 43_commands R172, R173: INIT of a supported configuration completes in every phase with exactly this engine (`DIN` kept,
everything else written), twice is once; every other configuration is INVALID_CONFIGURATION and nothing else; no other
command clears `ERR`; and the example of R172. -/
def Obligations.InitResult : Prop :=
  (∀ (w : Width) (cap : BitVec 11) (len : BitVec 16) (s : State),
    (((w = .kpe200 ∧ cap = 168) ∨ (w = .kpe1600 ∧ cap = 256)) ∧ 1 ≤ len.toNat →
      exec (.init w cap len) s = .next { s with engine :=
        { lanes := Vector.replicate 25 0, phase := .absorbing, cfgW := w, cfgCap := cap, cfgOutlen := len,
          buf := Vector.replicate 168 0, bufcnt := 0, cur := 0, outcnt := 0, din := s.engine.din, dout := 0,
          err := .none } } ∧
      andThen (exec (.init w cap len) s) (exec (.init w cap len)) = exec (.init w cap len) s) ∧
    (¬(((w = .kpe200 ∧ cap = 168) ∨ (w = .kpe1600 ∧ cap = 256)) ∧ 1 ≤ len.toNat) →
      exec (.init w cap len) s = .next (noteError .invalidConfiguration s))) ∧
  (∀ (i : Instr) (s t : State), exec i s = .next t → s.engine.err ≠ .none → t.engine.err = .none →
    ∃ w cap len, i = .init w cap len ∧ validConfig w cap len = true) ∧
  (∃ t, executeCommand 0x00041501 State.reset = .next t ∧ memRead .status t.engine = 0x00000001 ∧
    memRead .config t.engine = 0x00041500)

/-- 43_commands §2: INIT forgets the hash in progress: after a successful INIT two machines that differed only in the engine
and had the same `DIN` are the same. -/
def Obligations.InitForgetsTheOldHash : Prop :=
  ∀ (w : Width) (cap : BitVec 11) (len : BitVec 16) (s : State) (k : Engine),
    validConfig w cap len = true → k.din = s.engine.din →
      exec (.init w cap len) s = exec (.init w cap len) { s with engine := k }

/-- 43_commands §2: what INIT leaves unchanged. -/
def Obligations.InitFrame : Prop :=
  ∀ (w : Width) (cap : BitVec 11) (len : BitVec 16) (s t : State), exec (.init w cap len) s = .next t →
    t.engine.din = s.engine.din ∧ memRead .din t.engine = memRead .din s.engine ∧ t.kpeBase = s.kpeBase ∧
      t.hosts = s.hosts ∧ t.schedule = s.schedule ∧ t.observed = s.observed ∧ t.freeCount = s.freeCount

/-! ## ABSORB -/

/-- 43_commands §3: an ABSORB that does not fill the block completes: bytes 0 to `nb − 1` of `DIN` stand at `BUF[BUFCNT]` and
up, `BUFCNT` grows by `nb`, nothing else changes. -/
def Obligations.AbsorbWithinBlock : Prop :=
  ∀ (nb : Nat) (s : State), s.engine.phase = .absorbing → 1 ≤ nb → nb ≤ 4 →
    s.engine.bufcnt.toNat + nb < rateBytes s.engine.cfgW →
      exec (.absorb nb) s = .next { s with engine := { s.engine with
        buf := Vector.ofFn fun i : Fin 168 =>
          if s.engine.bufcnt.toNat ≤ i.val ∧ i.val < s.engine.bufcnt.toNat + nb then
            s.engine.din.extractLsb' (8 * (i.val - s.engine.bufcnt.toNat)) 8
          else s.engine.buf[i.val]
        bufcnt := BitVec.ofNat 8 (s.engine.bufcnt.toNat + nb) } }

/-- 43_commands §3: an ABSORB that fills the block completes: the buffered bytes and the first bytes of `DIN` make one block,
which is XORed into the state and permuted once; the remaining bytes start the next block in a cleared buffer. -/
def Obligations.AbsorbAcrossBlock : Prop :=
  ∀ (nb : Nat) (s : State), s.engine.Inv → s.engine.phase = .absorbing → 1 ≤ nb → nb ≤ 4 →
    rateBytes s.engine.cfgW ≤ s.engine.bufcnt.toNat + nb →
      exec (.absorb nb) s = .next { s with engine := { s.engine with
        lanes := permute s.engine.cfgW (xorBlock s.engine.cfgW s.engine.lanes
          (s.engine.buf.toList.take s.engine.bufcnt.toNat ++
            (List.range (rateBytes s.engine.cfgW - s.engine.bufcnt.toNat)).map
              fun j => s.engine.din.extractLsb' (8 * j) 8))
        buf := Vector.ofFn fun i : Fin 168 =>
          if i.val < s.engine.bufcnt.toNat + nb - rateBytes s.engine.cfgW then
            s.engine.din.extractLsb' (8 * (rateBytes s.engine.cfgW - s.engine.bufcnt.toNat + i.val)) 8
          else 0
        bufcnt := BitVec.ofNat 8 (s.engine.bufcnt.toNat + nb - rateBytes s.engine.cfgW) } }

/-- 43_commands §3: what ABSORB leaves unchanged.  Only `S`, `BUF`, `BUFCNT` and, when it fails, `ERR` may change; `BUF` only
below the rate; every register a host reads but STATUS, and in STATUS the fields CUR and PHASE, read as before. -/
def Obligations.AbsorbFrame : Prop :=
  ∀ (nb : Nat) (s t : State), exec (.absorb nb) s = .next t →
    t.engine.phase = s.engine.phase ∧ t.engine.cfgW = s.engine.cfgW ∧ t.engine.cfgCap = s.engine.cfgCap ∧
      t.engine.cfgOutlen = s.engine.cfgOutlen ∧ t.engine.cur = s.engine.cur ∧ t.engine.outcnt = s.engine.outcnt ∧
      t.engine.din = s.engine.din ∧ t.engine.dout = s.engine.dout ∧
      (s.engine.phase = .absorbing → t.engine.err = s.engine.err) ∧
      (s.engine.bufcnt.toNat < rateBytes s.engine.cfgW → ∀ i : Fin 168, rateBytes s.engine.cfgW ≤ i.val →
        t.engine.buf[i.val] = s.engine.buf[i.val]) ∧
      (∀ r : Reg, r ≠ .status → memRead r t.engine = memRead r s.engine) ∧
      (memRead .status t.engine).extractLsb' 16 16 = (memRead .status s.engine).extractLsb' 16 16 ∧
      (memRead .status t.engine).extractLsb' 0 2 = (memRead .status s.engine).extractLsb' 0 2 ∧
      t.kpeBase = s.kpeBase ∧ t.hosts = s.hosts ∧ t.schedule = s.schedule ∧ t.observed = s.observed ∧
      t.freeCount = s.freeCount

/-! ## FINALIZE -/

/-- 43_commands R180: FINALIZE in ABSORBING completes: the buffered bytes, the pad and one permutation; the buffer, the cursor
and the count are cleared, the phase is SQUEEZING, nothing else changes, and a second FINALIZE is INVALID_STATE.  In any other
phase it is INVALID_STATE, with a bit of [31:4] set ILLEGAL_COMMAND; and the rule's example. -/
def Obligations.FinalizeResult : Prop :=
  (∀ s : State, s.engine.phase = .absorbing → s.engine.bufcnt.toNat < rateBytes s.engine.cfgW →
    ∃ t, exec .finalize s = .next t ∧
      t = { s with engine := { s.engine with
        lanes := permute s.engine.cfgW (xorBlock s.engine.cfgW s.engine.lanes
          (s.engine.buf.toList.take s.engine.bufcnt.toNat ++
            (if s.engine.bufcnt.toNat = rateBytes s.engine.cfgW - 1 then [0x81]
             else 0x01 :: (List.replicate (rateBytes s.engine.cfgW - 2 - s.engine.bufcnt.toNat) 0x00 ++ [0x80]))))
        buf := Vector.replicate 168 0, bufcnt := 0, cur := 0, outcnt := 0, phase := .squeezing } } ∧
      exec .finalize t = .next (noteError .invalidState t)) ∧
  (∀ s : State, s.engine.phase ≠ .absorbing → exec .finalize s = .next (noteError .invalidState s)) ∧
  (∀ (cmd : Word) (s : State), cmd.toNat % 16 = 3 → cmd.toNat / 16 ≠ 0 →
    executeCommand cmd s = .next (noteError .illegalCommand s)) ∧
  (∃ t, runLines 0 (newhasher .kpe200 168 4 ++ [.wr .din 0x00636261, wrCmd (.absorb 3), wrCmd .finalize]) State.reset =
      .next t ∧
    t.engine.lanes = permute .kpe200 (xorBlock .kpe200 (Vector.replicate 25 0) [0x61, 0x62, 0x63, 0x81]) ∧
    memRead .status t.engine = 0x00000002)

/-- 43_commands §4: what FINALIZE leaves unchanged: the configuration, `DIN`, `DOUT` ("It produces no output, and `DOUT` is
unchanged") and, when it succeeds, `ERR`; every register a host reads but STATUS and OUTCNT. -/
def Obligations.FinalizeFrame : Prop :=
  ∀ s t : State, exec .finalize s = .next t →
    t.engine.cfgW = s.engine.cfgW ∧ t.engine.cfgCap = s.engine.cfgCap ∧ t.engine.cfgOutlen = s.engine.cfgOutlen ∧
      t.engine.din = s.engine.din ∧ t.engine.dout = s.engine.dout ∧
      (s.engine.phase = .absorbing → t.engine.err = s.engine.err) ∧
      (∀ r : Reg, r ≠ .status → r ≠ .outcnt → memRead r t.engine = memRead r s.engine) ∧
      t.kpeBase = s.kpeBase ∧ t.hosts = s.hosts ∧ t.schedule = s.schedule ∧ t.observed = s.observed ∧
      t.freeCount = s.freeCount

/-! ## SQUEEZE -/

/-- 43_commands §5: a SQUEEZE whose bytes stand in the current block completes: byte `j` of DOUT is state byte `CUR + j`, bytes
from `nb` on are 0, `CUR` and `OUTCNT` grow by `nb`, and the phase becomes FINALIZED exactly at the last byte. -/
def Obligations.SqueezeWithinBlock : Prop :=
  ∀ (nb : Nat) (s : State), s.engine.phase = .squeezing → 1 ≤ nb → nb ≤ 4 →
    s.engine.outcnt.toNat + nb ≤ s.engine.cfgOutlen.toNat →
    s.engine.cur.toNat + nb ≤ rateBytes s.engine.cfgW →
      ∃ d : Word,
        (∀ j, j < 4 → d.extractLsb' (8 * j) 8 =
          if j < nb then stateByte s.engine.cfgW s.engine.lanes (s.engine.cur.toNat + j) else 0) ∧
        exec (.squeeze nb) s = .next { s with engine := { s.engine with
          dout := d
          cur := BitVec.ofNat 8 (s.engine.cur.toNat + nb)
          outcnt := BitVec.ofNat 16 (s.engine.outcnt.toNat + nb)
          phase := if s.engine.outcnt.toNat + nb = s.engine.cfgOutlen.toNat then .finalized else .squeezing } }

/-- 43_commands §5: a SQUEEZE that needs a byte past the current block completes: the rest of the block, then one permutation,
then the first bytes of the new block. -/
def Obligations.SqueezeAcrossBlock : Prop :=
  ∀ (nb : Nat) (s : State), s.engine.phase = .squeezing → 1 ≤ nb → nb ≤ 4 →
    s.engine.outcnt.toNat + nb ≤ s.engine.cfgOutlen.toNat →
    s.engine.cur.toNat ≤ rateBytes s.engine.cfgW → rateBytes s.engine.cfgW < s.engine.cur.toNat + nb →
      ∃ d : Word,
        (∀ j, j < 4 → d.extractLsb' (8 * j) 8 =
          if j < rateBytes s.engine.cfgW - s.engine.cur.toNat then
            stateByte s.engine.cfgW s.engine.lanes (s.engine.cur.toNat + j)
          else if j < nb then
            stateByte s.engine.cfgW (permute s.engine.cfgW s.engine.lanes)
              (s.engine.cur.toNat + j - rateBytes s.engine.cfgW)
          else 0) ∧
        exec (.squeeze nb) s = .next { s with engine := { s.engine with
          lanes := permute s.engine.cfgW s.engine.lanes
          dout := d
          cur := BitVec.ofNat 8 (s.engine.cur.toNat + nb - rateBytes s.engine.cfgW)
          outcnt := BitVec.ofNat 16 (s.engine.outcnt.toNat + nb)
          phase := if s.engine.outcnt.toNat + nb = s.engine.cfgOutlen.toNat then .finalized else .squeezing } }

/-- 43_commands §5: what SQUEEZE leaves unchanged: the configuration, `BUF`, `BUFCNT`, `DIN` and, when it succeeds, `ERR`; every
register a host reads but STATUS, DOUT and OUTCNT; a SQUEEZE that fails produces no byte, so DOUT and OUTCNT read as before. -/
def Obligations.SqueezeFrame : Prop :=
  ∀ (nb : Nat) (s t : State), exec (.squeeze nb) s = .next t →
    t.engine.cfgW = s.engine.cfgW ∧ t.engine.cfgCap = s.engine.cfgCap ∧ t.engine.cfgOutlen = s.engine.cfgOutlen ∧
      t.engine.buf = s.engine.buf ∧ t.engine.bufcnt = s.engine.bufcnt ∧ t.engine.din = s.engine.din ∧
      (s.engine.phase = .squeezing → s.engine.outcnt.toNat + nb ≤ s.engine.cfgOutlen.toNat →
        t.engine.err = s.engine.err) ∧
      (∀ r : Reg, r ≠ .status → r ≠ .dout → r ≠ .outcnt → memRead r t.engine = memRead r s.engine) ∧
      (s.engine.phase ≠ .squeezing ∨ s.engine.cfgOutlen.toNat < s.engine.outcnt.toNat + nb →
        t.engine.lanes = s.engine.lanes ∧ t.engine.cur = s.engine.cur ∧
          memRead .dout t.engine = memRead .dout s.engine ∧ memRead .outcnt t.engine = memRead .outcnt s.engine) ∧
      t.kpeBase = s.kpeBase ∧ t.hosts = s.hosts ∧ t.schedule = s.schedule ∧ t.observed = s.observed ∧
      t.freeCount = s.freeCount

/-- 43_commands §5, §6: SQUEEZEs of any sizes, each followed by a read of DOUT, return the output stream from the cursor on:
the bytes do not depend on the split. -/
def Obligations.OutputIndependentOfSplit : Prop :=
  ∀ (h : Nat) (sizes : List Nat) (s : State), s.engine.cur.toNat ≤ rateBytes s.engine.cfgW →
    s.engine.phase = .squeezing →
    (∀ k ∈ sizes, 1 ≤ k ∧ k ≤ 4) → s.engine.outcnt.toNat + sizes.sum ≤ s.engine.cfgOutlen.toNat →
      ∃ (t : State) (words : List Word),
        runLines h (squeezeLines sizes) s = .next t ∧ words.length = sizes.length ∧
          t.observed = s.observed ++ words.map (fun v => ⟨h, .dout, v⟩) ∧
          collectBytes sizes words = (List.range sizes.sum).map
            (fun n => outputByte s.engine.cfgW s.engine.lanes (s.engine.cur.toNat + n)) ∧
          t.engine.outcnt.toNat = s.engine.outcnt.toNat + sizes.sum ∧ t.engine.err = s.engine.err

/-- 43_commands §6: from the start of output, SQUEEZEs whose sizes sum to `CFG_OUTLEN` all succeed and end in FINALIZED, and then
no SQUEEZE produces a byte. -/
def Obligations.FixedOutputLength : Prop :=
  ∀ (sizes : List Nat) (s : State), s.engine.phase = .squeezing → s.engine.outcnt = 0 →
    (∀ k ∈ sizes, 1 ≤ k ∧ k ≤ 4) → sizes.sum = s.engine.cfgOutlen.toNat → 1 ≤ s.engine.cfgOutlen.toNat →
      ∃ t, runCommands (sizes.map .squeeze) s = .next t ∧ t.engine.phase = .finalized ∧
        t.engine.outcnt = s.engine.cfgOutlen ∧ t.engine.err = s.engine.err ∧
        ∀ nb, exec (.squeeze nb) t = .next (noteError .invalidState t)

/-! ## The phase machine and the errors -/

/-- 43_commands R171: the table of phases.  Every accepted cell with the phase it leads to; every cell marked "—" is
INVALID_STATE and changes nothing else; an invalid INIT and an illegal word keep the phase, in every phase. -/
def Obligations.PhaseTable : Prop :=
  ∀ s : State,
    (∀ w cap len, validConfig w cap len = true →
      ∃ t, exec (.init w cap len) s = .next t ∧ t.engine.phase = .absorbing) ∧
    (∀ w cap len, validConfig w cap len = false →
      exec (.init w cap len) s = .next (noteError .invalidConfiguration s)) ∧
    (∀ nb, s.engine.phase = .absorbing → ∃ t, exec (.absorb nb) s = .next t ∧ t.engine.phase = .absorbing) ∧
    (∀ nb, s.engine.phase ≠ .absorbing → exec (.absorb nb) s = .next (noteError .invalidState s)) ∧
    (s.engine.phase = .absorbing → ∃ t, exec .finalize s = .next t ∧ t.engine.phase = .squeezing) ∧
    (s.engine.phase ≠ .absorbing → exec .finalize s = .next (noteError .invalidState s)) ∧
    (∀ nb, s.engine.phase = .squeezing → s.engine.outcnt.toNat + nb ≤ s.engine.cfgOutlen.toNat →
      ∃ t, exec (.squeeze nb) s = .next t ∧ t.engine.outcnt.toNat = s.engine.outcnt.toNat + nb ∧
        t.engine.phase = if t.engine.outcnt = s.engine.cfgOutlen then .finalized else .squeezing) ∧
    (∀ nb, s.engine.phase ≠ .squeezing → exec (.squeeze nb) s = .next (noteError .invalidState s)) ∧
    (∀ cmd e, decode cmd = .error e → executeCommand cmd s = .next (noteError .illegalCommand s))

/-- 60_exceptions R223, R224: a command that is not accepted, and a word that is no command, change no state but `ERR`, and `ERR`
keeps the first error. -/
def Obligations.FailedCommandChangesOnlyErr : Prop :=
  (∀ (i : Instr) (s : State), ¬Accepted i s.engine →
    exec i s = .next { s with engine := { s.engine with
      err := if s.engine.err = .none then errorOf i else s.engine.err } }) ∧
  (∀ (cmd : Word) (e : Illegal) (s : State), decode cmd = .error e →
    executeCommand cmd s = .next { s with engine := { s.engine with
      err := if s.engine.err = .none then .illegalCommand else s.engine.err } })

/-- 60_exceptions R226: in one step `ERR` returns to NONE only by a reset or by a successful INIT, and both do it; STATUS shows
`ERR` at all times, and reading it does not clear it. -/
def Obligations.ErrClearedOnlyByResetOrInit : Prop :=
  (∀ s t : State, step s = .next t → s.engine.err ≠ .none → t.engine.err = .none →
    (∃ rest, s.schedule = .reset :: rest) ∨ (∃ h held rest, s.schedule = .resetDuring h held :: rest) ∨
    (∃ h rest a hosts cmd w cap len, s.schedule = .host h :: rest ∧ takeAccess h s.hosts = some (a, hosts) ∧
      target s.kpeBase a = .ok .cmd ∧ a.kind = .write cmd ∧ decode cmd = .ok (.init w cap len) ∧
      validConfig w cap len = true)) ∧
  (∀ (s : State) (rest : List Turn), s.schedule = .reset :: rest → ∃ t, step s = .next t ∧ t.engine.err = .none) ∧
  (∀ (s : State) w cap len, validConfig w cap len = true →
    ∃ t, exec (.init w cap len) s = .next t ∧ t.engine.err = .none) ∧
  (∀ (s : State) (h : Nat), ∃ t, serve h (readOf s.kpeBase .status) s = .next t ∧ t.engine = s.engine ∧
    (memRead .status s.engine).extractLsb' 2 2 = errCode s.engine.err)

/-- 60_exceptions §2, R227's reading of `ERR`: after any lines of a host without a successful INIT, from `ERR = NONE`, and after
any such lines behind a successful INIT, from any state, `ERR = NONE` says exactly that every word written to CMD was a command
that was accepted in the state it ran in.  Failed INITs and illegal words are among the words. -/
def Obligations.ErrNoneMeansAllAccepted : Prop :=
  ∀ (h : Nat) (ls : List HostLine) (s : State),
    (∀ v w cap len, .wr .cmd v ∈ ls → decode v = .ok (.init w cap len) → validConfig w cap len = false) →
    (s.engine.err = .none →
      ∃ t, runLines h ls s = .next t ∧
        (t.engine.err = .none ↔
          ∀ before v later, ls = before ++ .wr .cmd v :: later →
            ∃ u i, runLines h before s = .next u ∧ decode v = .ok i ∧ Accepted i u.engine)) ∧
    (∀ w cap len, validConfig w cap len = true →
      ∃ t, runLines h (newhasher w cap len ++ ls) s = .next t ∧
        (t.engine.err = .none ↔
          ∀ before v later, ls = before ++ .wr .cmd v :: later →
            ∃ u i, runLines h (newhasher w cap len ++ before) s = .next u ∧ decode v = .ok i ∧ Accepted i u.engine))

/-- 43_commands R192: FINALIZED is reached when the last byte is produced; there SQUEEZE, ABSORB and FINALIZE are
INVALID_STATE, and no command but INIT leaves it. -/
def Obligations.FinalizedAcceptsOnlyInit : Prop :=
  (∀ (i : Instr) (s t : State), exec i s = .next t → t.engine.phase = .finalized → s.engine.phase ≠ .finalized →
    ∃ nb, i = .squeeze nb ∧ t.engine.outcnt = t.engine.cfgOutlen) ∧
  (∀ (nb : Nat) (s : State), s.engine.phase = .squeezing →
    s.engine.outcnt.toNat + nb = s.engine.cfgOutlen.toNat →
      ∃ t, exec (.squeeze nb) s = .next t ∧ t.engine.phase = .finalized) ∧
  (∀ (i : Instr) (s : State), s.engine.phase = .finalized → (∀ w cap len, i ≠ .init w cap len) →
    exec i s = .next (noteError .invalidState s)) ∧
  (∀ (i : Instr) (s t : State), s.engine.phase = .finalized → exec i s = .next t → t.engine.phase ≠ .finalized →
    ∃ w cap len, i = .init w cap len)

/-- 70_reset §1: reset is the only way back to UNCONFIGURED: a step into it from another phase is a reset turn. -/
def Obligations.OnlyResetUnconfigures : Prop :=
  ∀ s t : State, step s = .next t → t.engine.phase = .unconfigured → s.engine.phase ≠ .unconfigured →
    (∃ rest, s.schedule = .reset :: rest) ∨ (∃ h held rest, s.schedule = .resetDuring h held :: rest)

/-! ## The permutation -/

/-- 40_permutation R103: θ, lane by lane, with the columns `x − 1` and `x + 1` the rule takes from the Keccak reference; and the
rule's example. -/
def Obligations.ThetaLanes : Prop :=
  (∀ (w : Nat) (A : Grid w) (x y : Fin 5),
    lane (theta A) x y = lane A x y ^^^
      ((lane A (x - 1) 0 ^^^ lane A (x - 1) 1 ^^^ lane A (x - 1) 2 ^^^ lane A (x - 1) 3 ^^^ lane A (x - 1) 4) ^^^
       (lane A (x + 1) 0 ^^^ lane A (x + 1) 1 ^^^ lane A (x + 1) 2 ^^^ lane A (x + 1) 3 ^^^
          lane A (x + 1) 4).rotateLeft 1)) ∧
  (∀ (A : Grid 8), (∀ x y, lane A x y = if x = 1 ∧ y = 1 then 0x80 else 0) →
    ∀ x y, lane (theta A) x y = if x = 0 then 0x01 else if x = 2 then 0x80 else if x = 1 ∧ y = 1 then 0x80 else 0)

/-- 40_permutation R104: ρ, lane by lane, with the offsets of R105; an offset is below `w`, lane 0 and the three offsets 0 of
KPE-200 stay; and the rule's example. -/
def Obligations.RhoLanes : Prop :=
  (∀ (c : Width) (A : Grid (laneBits c)) (x y : Fin 5),
    lane (rho c A) x y = (lane A x y).rotateLeft (rhoOffset c x y) ∧ rhoOffset c x y < laneBits c) ∧
  (∀ (c : Width) (A : Grid (laneBits c)), lane (rho c A) 0 0 = lane A 0 0) ∧
  (∀ A : Grid (laneBits .kpe200), lane (rho .kpe200 A) 4 3 = lane A 4 3 ∧ lane (rho .kpe200 A) 3 4 = lane A 3 4) ∧
  (∀ A : Grid (laneBits .kpe200), lane A 1 0 = 0x81#8 → lane (rho .kpe200 A) 1 0 = 0x03#8)

/-- 40_permutation R107: π moves the lane at `(x, y)` to `(y, 2x + 3y)`, as the flat table says; it loses no lane. -/
def Obligations.PiMovesLanes : Prop :=
  (∀ (w : Nat) (A : Grid w) (x y : Fin 5), lane (pi A) y (2 * x + 3 * y) = lane A x y) ∧
  (∀ (w : Nat) (A : Grid w) (i : Fin 25),
    (pi A).toList.getD ([0, 10, 20, 5, 15, 16, 1, 11, 21, 6, 7, 17, 2, 12, 22, 23, 8, 18, 3, 13, 14, 24, 9, 19,
      4].getD i.val 0) 0 = A[i.val]) ∧
  (∀ (w : Nat) (A B : Grid w), pi A = pi B → A = B)

/-- 40_permutation §1, §4, §8: a round is θ, ρ, π, χ, ι in this order; KeccakF is 18 rounds in KPE-200 and 24 in KPE-1600, with
the indices 0, 1, … in ascending order; the permutation of the state is KeccakF of its lanes; R114's example of the zero state,
no fixed point; and in ρ and π together the offset is the one of the lane's position before π moves it. -/
def Obligations.PermutationIsRoundsOfFiveSteps : Prop :=
  (∀ (c : Width) (A : Grid (laneBits c)) (ir : Nat), round c A ir = iota c (chi (pi (rho c (theta A)))) ir) ∧
  (∀ A : Grid (laneBits .kpe200), ∃ B : Nat → Grid (laneBits .kpe200),
    B 0 = A ∧ (∀ ir, ir < 18 → B (ir + 1) = iota .kpe200 (chi (pi (rho .kpe200 (theta (B ir))))) ir) ∧
      keccakF .kpe200 A = B 18) ∧
  (∀ A : Grid (laneBits .kpe1600), ∃ B : Nat → Grid (laneBits .kpe1600),
    B 0 = A ∧ (∀ ir, ir < 24 → B (ir + 1) = iota .kpe1600 (chi (pi (rho .kpe1600 (theta (B ir))))) ir) ∧
      keccakF .kpe1600 A = B 24) ∧
  (∀ A : Grid (laneBits .kpe200), permute .kpe200 (A.map (·.setWidth 64)) = (keccakF .kpe200 A).map (·.setWidth 64)) ∧
  (∀ S : Vector Lane 25, permute .kpe1600 S = keccakF .kpe1600 S) ∧
  (permute .kpe200 (Vector.replicate 25 0) =
    #v[0x3c, 0x28, 0x26, 0x84, 0x1c, 0xb3, 0x5c, 0x17, 0x1e, 0xaa, 0xe9, 0xb8, 0x11, 0x13, 0x4c,
      0xea, 0xa3, 0x85, 0x2c, 0x69, 0xd2, 0xc5, 0xab, 0xaf, 0xea]) ∧
  (∀ c : Width, permute c (Vector.replicate 25 0) ≠ Vector.replicate 25 0) ∧
  (∀ (c : Width) (A : Grid (laneBits c)) (x y : Fin 5),
    lane (pi (rho c A)) y (2 * x + 3 * y) = (lane A x y).rotateLeft (rhoOffset c x y))

/-- 40_permutation R109: χ, lane by lane, with the lanes `x + 1` and `x + 2` the rule takes from the Keccak reference, complement
within `w` bits; and the rule's example. -/
def Obligations.ChiLanes : Prop :=
  (∀ (w : Nat) (B : Grid w) (x y : Fin 5),
    lane (chi B) x y = lane B x y ^^^ ((lane B (x + 1) y ^^^ BitVec.allOnes w) &&& lane B (x + 2) y)) ∧
  (∀ B : Grid 8, lane B 0 0 = 0x01 → (∀ x : Fin 5, x ≠ 0 → lane B x 0 = 0) →
    lane (chi B) 0 0 = 0x01 ∧ lane (chi B) 1 0 = 0 ∧ lane (chi B) 2 0 = 0 ∧ lane (chi B) 3 0 = 0x01 ∧
      lane (chi B) 4 0 = 0)

/-- 40_permutation R110: ι XORs the round constant into lane `(0,0)` and leaves every other lane; round 3 changes nothing in
KPE-200; and the rule's example. -/
def Obligations.IotaLanes : Prop :=
  (∀ (c : Width) (A : Grid (laneBits c)) (ir : Nat) (x y : Fin 5),
    lane (iota c A ir) x y = if x = 0 ∧ y = 0 then lane A 0 0 ^^^ roundConstant c ir else lane A x y) ∧
  (∀ A : Grid (laneBits .kpe200), iota .kpe200 A 3 = A) ∧
  (∀ A : Grid (laneBits .kpe200), lane A 0 0 = 0x02#8 → lane (iota .kpe200 A 0) 0 0 = 0x03#8)

/-- 40_permutation R106: the recurrence visits each position once and gives the offsets of the table, for both widths. -/
def Obligations.OffsetsFollowRecurrence : Prop :=
  ∀ c : Width, ((rhoGenerated (laneBits c)).map fun p => (p.1, p.2.1)).Nodup ∧
    (rhoGenerated (laneBits c)).length = 25 ∧
    ∀ p ∈ rhoGenerated (laneBits c), rhoOffset c p.1 p.2.1 = p.2.2

/-- 40_permutation R112: the LFSR generates the round constants, with `l` = 3 and 6. -/
def Obligations.RoundConstantsFollowRecurrence : Prop :=
  (∀ ir, ir < 18 → (roundConstant .kpe200 ir).toNat = rcGenerated 3 ir) ∧
  (∀ ir, ir < 24 → (roundConstant .kpe1600 ir).toNat = rcGenerated 6 ir)

/-- 40_permutation §7: the tables of KPE-200 are the low bytes, and the offsets mod 8, of those of KPE-1600. -/
def Obligations.NarrowTablesAreTruncations : Prop :=
  (∀ ir, ir < 18 → (roundConstant .kpe200 ir).toNat = (roundConstant .kpe1600 ir).toNat % 2 ^ 8) ∧
  (∀ x y : Fin 5, rhoOffset .kpe200 x y = rhoOffset .kpe1600 x y % 8)

/-- 40_permutation §8: in KPE-200 the permutation writes no bit above bit 7 of a lane and reads none, and the block XOR sets none
where none is set.  For lanes that have such bits set, of which the spec says nothing, the first two clauses are the model's
choice (log entry 10). -/
def Obligations.NarrowLanesStayNarrow : Prop :=
  (∀ (S : Vector Lane 25) (i : Fin 25), (permute .kpe200 S)[i.val].extractLsb' 8 56 = 0) ∧
  (∀ S T : Vector Lane 25, (∀ i : Fin 25, S[i.val].extractLsb' 0 8 = T[i.val].extractLsb' 0 8) →
    permute .kpe200 S = permute .kpe200 T) ∧
  (∀ (S : Vector Lane 25) (blk : List Byte), (∀ i : Fin 25, S[i.val].extractLsb' 8 56 = 0) →
    ∀ i : Fin 25, (xorBlock .kpe200 S blk)[i.val].extractLsb' 8 56 = 0)

/-! ## The sponge datapath and the padding -/

/-- 41_sponge R142, R144: state byte `i` is byte `i mod LB` of lane `i div LB`, counted from the least significant, with `LB` 1
and 8; SetXor XORs into that byte alone; XorBlock XORs byte `i` of the block into state byte `i` for `i < R`, and changes no other
byte and no capacity lane; and R143's example, the bytes `61 62 63` of KPE-1600 with and without the pad. -/
def Obligations.StateBytesAndXorBlock : Prop :=
  (∀ (S : Vector Lane 25) (l : Fin 25), stateByte .kpe200 S l.val = S[l.val].extractLsb' 0 8) ∧
  (∀ (S : Vector Lane 25) (l : Fin 25) (j : Fin 8),
    stateByte .kpe1600 S (8 * l.val + j.val) = S[l.val].extractLsb' (8 * j.val) 8) ∧
  (∀ (c : Width) (S : Vector Lane 25) (i j : Nat) (v : Byte), i < 25 * laneBytes c → j < 25 * laneBytes c →
    stateByte c (setXor c S i v) j = if j = i then stateByte c S j ^^^ v else stateByte c S j) ∧
  (∀ (c : Width) (S : Vector Lane 25) (blk : List Byte), blk.length = rateBytes c →
    (∀ i, i < 25 * laneBytes c →
      stateByte c (xorBlock c S blk) i =
        if i < rateBytes c then stateByte c S i ^^^ blk.getD i 0 else stateByte c S i) ∧
    (∀ i : Fin 25, rateBytes c / laneBytes c ≤ i.val → (xorBlock c S blk)[i.val] = S[i.val])) ∧
  (xorBlock .kpe1600 (Vector.replicate 25 0) ([0x61, 0x62, 0x63] ++ List.replicate 165 0))[0] = 0x0000000000636261 ∧
  (xorBlock .kpe1600 (Vector.replicate 25 0) (padBlock .kpe1600 [0x61, 0x62, 0x63] 3))[0] = 0x0000000001636261 ∧
  (xorBlock .kpe1600 (Vector.replicate 25 0) (padBlock .kpe1600 [0x61, 0x62, 0x63] 3))[20] = 0x8000000000000000

/-- 42_padding R161: PadBlock is exactly `R` bytes: the `k` buffered bytes, then `0x81`, or `0x01`, zero bytes and
`0x80`. -/
def Obligations.PadBlockBytes : Prop :=
  ∀ (c : Width) (buf : List Byte) (k : Nat), k < rateBytes c → k ≤ buf.length →
    (padBlock c buf k).length = rateBytes c ∧
    padBlock c buf k = buf.take k ++
      (if k = rateBytes c - 1 then [0x81]
       else 0x01 :: (List.replicate (rateBytes c - 2 - k) 0x00 ++ [0x80]))

/-- 42_padding: at bit level the pad is a 1 bit, zero bits and a terminal 1 bit, least significant bit first: of the bits
from byte `k` to the end of the block exactly the first and the last are set. -/
def Obligations.PadIsOneZerosOne : Prop :=
  ∀ (c : Width) (buf : List Byte) (k n : Nat), k < rateBytes c → 8 * k ≤ n → n < 8 * rateBytes c →
    (((padBlock c buf k).getD (n / 8) 0).getLsbD (n % 8) = true ↔ n = 8 * k ∨ n = 8 * rateBytes c - 1)

/-- 41_sponge §5: the design that XORs each byte into the state as it arrives is the same machine: it commutes with every
byte absorbed and gives the same state after FINALIZE. -/
def Obligations.InPlaceAbsorptionRefines : Prop :=
  (∀ (v : Byte) (k : Engine), k.Inv → k.phase = .absorbing →
    inPlaceView (absorbByte v k) = inPlaceAbsorbByte v (inPlaceView k)) ∧
  (∀ k : Engine, k.Inv → k.phase = .absorbing →
    (finalizeEngine k).lanes = inPlaceFinalLanes (inPlaceView k))

/-! ## The register block and the bus -/

/-- 20_memory R55, R59, R60, R61, R63: a write of CMD runs the word and a read of it returns 0; the fields of STATUS, CONFIG and
OUTCNT, their reserved bits 0, their writes ignored; OUTCNT counts the bytes since FINALIZE; offsets 0x18 and 0x1C read 0 in
every state and ignore writes; and the examples. -/
def Obligations.RegisterBlockLayout : Prop :=
  (∀ (h : Nat) (cmd : Word) (s : State), serve h (writeOf s.kpeBase .cmd cmd) s = executeCommand cmd s) ∧
  (∀ (h : Nat) (s : State), serve h (writeOf s.kpeBase .cmd 0x00000003) s = exec .finalize s) ∧
  (∀ (h : Nat) (r : Reg) (s : State), r = .cmd ∨ r = .reserved18 ∨ r = .reserved1C →
    memRead r s.engine = 0 ∧
      serve h (readOf s.kpeBase r) s = .next { s with observed := s.observed ++ [⟨h, r, 0⟩] }) ∧
  (∀ k : Engine,
    (memRead .status k).extractLsb' 0 2 = phaseCode k.phase ∧ (memRead .status k).extractLsb' 2 2 = errCode k.err ∧
    (memRead .status k).extractLsb' 4 4 = 0 ∧ (memRead .status k).extractLsb' 8 8 = k.bufcnt ∧
    (memRead .status k).extractLsb' 16 8 = k.cur ∧ (memRead .status k).extractLsb' 24 8 = 0 ∧
    (memRead .config k).extractLsb' 0 4 = 0 ∧
    ((memRead .config k).getLsbD 4 = true ↔ k.cfgW = .kpe1600) ∧
    (memRead .config k).extractLsb' 5 11 = k.cfgCap ∧ (memRead .config k).extractLsb' 16 16 = k.cfgOutlen ∧
    (memRead .outcnt k).toNat = k.outcnt.toNat) ∧
  (∀ (s : State) (cmd : Word) w cap len, decode cmd = .ok (.init w cap len) → validConfig w cap len = true →
    ∃ t, executeCommand cmd s = .next t ∧ memRead .config t.engine = cmd &&& 0xFFFFFFF0) ∧
  (∃ t, executeCommand 0x00202011 State.reset = .next t ∧ memRead .config t.engine = 0x00202010) ∧
  (∃ t, runCommands [.init .kpe200 168 4, .absorb 3] State.reset = .next t ∧ memRead .status t.engine = 0x00000301) ∧
  (∀ (h : Nat) (r : Reg) (v : Word) (s : State),
    r = .status ∨ r = .config ∨ r = .outcnt ∨ r = .reserved18 ∨ r = .reserved1C →
    serve h (writeOf s.kpeBase r v) s = .next s) ∧
  (∀ s : State, s.engine.phase = .absorbing →
    ∃ t, exec .finalize s = .next t ∧ memRead .outcnt t.engine = 0) ∧
  (∀ (nb : Nat) (s : State), Accepted (.squeeze nb) s.engine →
    ∃ t, exec (.squeeze nb) s = .next t ∧
      (memRead .outcnt t.engine).toNat = (memRead .outcnt s.engine).toNat + nb) ∧
  (∃ t, runCommands [.init .kpe200 168 4, .finalize, .squeeze 4] State.reset = .next t ∧
    memRead .outcnt t.engine = 0x00000004)

/-- 20_memory R56: a write sets all of `DIN` and starts nothing else, a read returns the last value written, or 0 after reset; no
command changes `DIN`; ABSORB takes its bytes from `DIN` as it stands when it runs, and no other command depends on it; and the
rule's example. -/
def Obligations.DinHoldsWhatWasWritten : Prop :=
  (∀ (h : Nat) (v : Word) (s : State),
    serve h (writeOf s.kpeBase .din v) s = .next { s with engine := { s.engine with din := v } }) ∧
  (∀ k : Engine, memRead .din k = k.din) ∧ memRead .din Engine.reset = 0 ∧
  (∀ (i : Instr) (s t : State), exec i s = .next t → t.engine.din = s.engine.din) ∧
  (∀ (nb : Nat) (s : State), s.engine.phase = .absorbing →
    ∃ t, exec (.absorb nb) s = .next t ∧
      t.engine = absorbBytes ((List.range nb).map fun j => s.engine.din.extractLsb' (8 * j) 8) s.engine) ∧
  (∀ (i : Instr) (v : Word) (s t : State), (∀ nb, i ≠ .absorb nb) → exec i s = .next t →
    exec i { s with engine := { s.engine with din := v } } = .next { t with engine := { t.engine with din := v } }) ∧
  (∃ t, runLines 0 [.wr .din 0x00636261, .rd .din] State.reset = .next t ∧ t.observed = [⟨0, .din, 0x00636261⟩])

/-- 20_memory R64: a read of any register, in any state, returns its value to the host and changes nothing else, and what hosts
have read changes no later access; writing DIN twice is writing it once; each write to CMD runs one command, and twice need not
be once; a write to a read-only or reserved offset has no effect. -/
def Obligations.ReadsHaveNoSideEffects : Prop :=
  (∀ (h : Nat) (r : Reg) (s : State),
    serve h (readOf s.kpeBase r) s = .next { s with observed := s.observed ++ [⟨h, r, memRead r s.engine⟩] }) ∧
  (∀ (h : Nat) (v : Word) (s : State),
    andThen (serve h (writeOf s.kpeBase .din v) s) (serve h (writeOf s.kpeBase .din v)) =
      serve h (writeOf s.kpeBase .din v) s) ∧
  (∀ (g : Nat) (a : Access) (s t : State) (obs : List Observation), serve g a s = .next t →
    ∃ new, t.observed = s.observed ++ new ∧
      serve g a { s with observed := obs } = .next { t with observed := obs ++ new }) ∧
  (∀ (h : Nat) (cmd : Word) (s : State), serve h (writeOf s.kpeBase .cmd cmd) s = executeCommand cmd s) ∧
  (∃ (h : Nat) (cmd : Word) (s : State),
    andThen (serve h (writeOf s.kpeBase .cmd cmd) s) (serve h (writeOf s.kpeBase .cmd cmd)) ≠
      serve h (writeOf s.kpeBase .cmd cmd) s) ∧
  (∀ (h : Nat) (r : Reg) (v : Word) (s : State), r ≠ .cmd → r ≠ .din → serve h (writeOf s.kpeBase r v) s = .next s)

/-- 20_memory §2: an access in the block that is not 32 bits wide, or that is not at a multiple of 4, has no step: the host whose
turn it is is stuck; every aligned 32-bit access has one.  The names of the refusals, and which one an access has that is wrong
in more than one way or runs past the block's end, are the model's choice (log entry 6). -/
def Obligations.OnlyAlignedWordAccessesStep : Prop :=
  (∀ (s : State) (h : Nat) (a : Access) (hosts : List (List Access)) (rest : List Turn),
    s.schedule = .host h :: rest → takeAccess h s.hosts = some (a, hosts) →
    s.kpeBase ≤ a.addr → a.addr < s.kpeBase + 32 →
      (a.width ≠ .bits32 → step s = .refused .accessWidth) ∧
      (a.width = .bits32 → (a.addr - s.kpeBase) % 4 ≠ 0 → step s = .refused .accessMisaligned) ∧
      (a.width = .bits32 → (a.addr - s.kpeBase) % 4 = 0 → ∃ t, step s = .next t))

/-- 20_memory §8: turns of the hosts are their accesses performed one after the other in that order, and each host's accesses
keep the order in which it issued them. -/
def Obligations.RunIsAnInterleaving : Prop :=
  ∀ (hs : List Nat) (s : State) (acc : List (Nat × Access)) (qs : List (List Access)) (rest : List Turn),
    s.schedule = hs.map .host ++ rest → takeAll hs s.hosts = some (acc, qs) →
      Host.Core.run core hs.length s = serveAll acc { s with hosts := qs, schedule := rest } ∧
      ∀ h, (acc.filter fun p => p.1 = h).map Prod.snd ++ qs.getD h [] = s.hosts.getD h []

/-- 20_memory §5: no register shows the lanes or the buffer: engines that differ only there read the same everywhere. -/
def Obligations.ReadsHideLanesAndBuffer : Prop :=
  ∀ (r : Reg) (k : Engine) (S : Vector Lane 25) (B : Vector Byte 168),
    memRead r { k with lanes := S, buf := B } = memRead r k

/-- 41_sponge §4: no byte of the capacity is output: two machines whose states agree on the rate read the same after a
SQUEEZE within the block. -/
def Obligations.CapacityIsNotOutput : Prop :=
  ∀ (nb : Nat) (s : State) (S : Vector Lane 25), s.engine.phase = .squeezing → 1 ≤ nb → nb ≤ 4 →
    s.engine.cur.toNat + nb ≤ rateBytes s.engine.cfgW →
    s.engine.outcnt.toNat + nb ≤ s.engine.cfgOutlen.toNat →
    (∀ i, i < rateBytes s.engine.cfgW →
      stateByte s.engine.cfgW S i = stateByte s.engine.cfgW s.engine.lanes i) →
      ∃ t u, exec (.squeeze nb) s = .next t ∧
        exec (.squeeze nb) { s with engine := { s.engine with lanes := S } } = .next u ∧
        ∀ r, memRead r t.engine = memRead r u.engine

/-- 00_scope §3, §5: no step changes the base address or the number of hosts, and what hosts have read is never taken back. -/
def Obligations.PlatformParametersStay : Prop :=
  ∀ s t : State, step s = .next t →
    t.kpeBase = s.kpeBase ∧ t.hosts.length = s.hosts.length ∧ ∃ new, t.observed = s.observed ++ new

/-! ## Reset -/

/-- 70_reset R260, 10_state R37: a reset turn sets every piece of the engine's state to its reset value and leaves nothing of
the previous state; every register reads 0 after it; the reset machine's engine is that one. -/
def Obligations.ResetSetsEverything : Prop :=
  (∀ (s : State) (rest : List Turn), s.schedule = .reset :: rest →
    step s = .next { s with schedule := rest, engine :=
      { lanes := Vector.replicate 25 0, phase := .unconfigured, cfgW := .kpe200, cfgCap := 0, cfgOutlen := 0,
        buf := Vector.replicate 168 0, bufcnt := 0, cur := 0, outcnt := 0, din := 0, dout := 0, err := .none } }) ∧
  State.reset.engine = Engine.reset ∧
  State.reset.engine.lanes = Vector.replicate 25 0 ∧ State.reset.engine.buf = Vector.replicate 168 0 ∧
  ∀ r : Reg, memRead r State.reset.engine = 0

/-- 70_reset §1: a reset while a command runs abandons the command, and the state is the reset state.  93 Part 2, U3, and log entry
7: a read held then returns some value, a write held then is performed on the reset state or dropped.  Counting the free values
is the model's own (log entry 7). -/
def Obligations.ResetDuringCommand : Prop :=
  ∀ (s : State) (h : Nat) (cmd : Word) (hosts : List (List Access)) (rest : List Turn),
    takeAccess h s.hosts = some (writeOf s.kpeBase .cmd cmd, hosts) →
    (s.schedule = .resetDuring h [] :: rest →
      step s = .next { s with engine := Engine.reset, hosts := hosts, schedule := rest }) ∧
    (∀ (g : Nat) (r : Reg) (hosts' : List (List Access)), s.schedule = .resetDuring h [g] :: rest →
      (takeAccess g hosts = some (readOf s.kpeBase r, hosts') →
        ∃ v, step s = .next { s with
          engine := Engine.reset, hosts := hosts', schedule := rest, observed := s.observed ++ [⟨g, r, v⟩]
          freeCount := s.freeCount + 1 }) ∧
      (∀ v, takeAccess g hosts = some (writeOf s.kpeBase r v, hosts') →
        step s = .next { s with
          engine := Engine.reset, hosts := hosts', schedule := rest, freeCount := s.freeCount + 1 } ∨
        step s = memWrite r v { s with
          engine := Engine.reset, hosts := hosts', schedule := rest, freeCount := s.freeCount + 1 }))

/-! ## The invariant -/

/-- 10_state §8: the invariants hold after reset; the base address and the number of hosts there are the model's choice (log
entries 2, 3). -/
def Obligations.InvariantAtReset : Prop := State.reset.engine.Inv ∧ State.reset.PlatformOk

/-- 10_state §8: every step from every state that meets the invariants gives a state that meets them. -/
def Obligations.StepKeepsInvariant : Prop :=
  ∀ s t : State, s.engine.Inv → step s = .next t → t.engine.Inv

/-! ## Headlines -/

/-- 30_encoding §5, 41_sponge, 42_padding, 43_commands §6: the host program `newhasher; update m; digest`, run by any host in any
state, reads the digest of `m`: the padded message absorbed block by block, then the output stream of the configured length.
It ends FINALIZED with no error. -/
def Obligations.DigestProgramComputesSponge : Prop :=
  ∀ (h : Nat) (s : State) (c : Width) (len : BitVec 16) (m : List Byte), 1 ≤ len.toNat →
    ∃ (t : State) (words : List Word),
      runLines h (newhasher c (legalCapacity c) len ++ update m ++ digest len.toNat) s = .next t ∧
        t.observed = s.observed ++ words.map (fun v => ⟨h, .dout, v⟩) ∧
        digestBytes len.toNat words = spongeDigest c m len.toNat ∧
        t.engine.phase = .finalized ∧ t.engine.err = .none

/-- 41_sponge §5: however a byte sequence is split into DIN writes and ABSORBs, the machine ends in the same state, `DIN`
apart. -/
def Obligations.ChunkingDoesNotMatter : Prop :=
  ∀ (h : Nat) (s : State) (cs ds : List (Word × Nat)), s.engine.phase = .absorbing →
    (∀ p ∈ cs, 1 ≤ p.2 ∧ p.2 ≤ 4) → (∀ p ∈ ds, 1 ≤ p.2 ∧ p.2 ≤ 4) → chunkBytes cs = chunkBytes ds →
      ∃ t u, runLines h (chunkLines cs) s = .next t ∧ runLines h (chunkLines ds) s = .next u ∧
        { t with engine := t.engine.withoutDin } = { u with engine := u.engine.withoutDin }

/-- 43_commands §6: a hash depends only on its configuration and its bytes, not on what came before the INIT, on the host, or on
the chunking: after FINALIZE the engines are the same, `DIN` apart. -/
def Obligations.HashingIsDeterministic : Prop :=
  ∀ (g h : Nat) (s t : State) (w : Width) (cap : BitVec 11) (len : BitVec 16) (cs ds : List (Word × Nat)),
    validConfig w cap len = true → (∀ p ∈ cs, 1 ≤ p.2 ∧ p.2 ≤ 4) → (∀ p ∈ ds, 1 ≤ p.2 ∧ p.2 ≤ 4) →
    chunkBytes cs = chunkBytes ds →
      ∃ s' t', runLines g (newhasher w cap len ++ chunkLines cs ++ [wrCmd .finalize]) s = .next s' ∧
        runLines h (newhasher w cap len ++ chunkLines ds ++ [wrCmd .finalize]) t = .next t' ∧
        s'.engine.withoutDin = t'.engine.withoutDin

/-- 60_exceptions §5: hosts that update disjoint chunks of one message, one whole update after the other, leave the engine as
one host's update of the whole message does, `DIN` apart. -/
def Obligations.SharedUpdatesAreOneUpdate : Prop :=
  ∀ (g : Nat) (s : State) (parts : List (Nat × List Byte)), s.engine.phase = .absorbing →
    ∃ t u, serveAll (parts.flatMap fun p => (update p.2).map fun l => (p.1, l.access s.kpeBase)) s = .next t ∧
      runLines g (update (parts.flatMap Prod.snd)) s = .next u ∧
      t.engine.withoutDin = u.engine.withoutDin
end

