-- ==== Sys2Proof/Laws/Bits.lean ====
section
/-! SUPPORT. Fields of words as arithmetic on naturals, so that `omega` settles them. -/

namespace Sys2Proof

/-- `{a, b}` (00_scope R14) as a number. -/
theorem toNat_append_eq {a b : Nat} (x : BitVec a) (y : BitVec b) :
    (x ++ y).toNat = x.toNat * 2 ^ b + y.toNat := by
  rw [BitVec.toNat_append, Nat.shiftLeft_eq, Nat.mul_comm, Nat.two_pow_add_eq_or_of_lt y.isLt]

/-- `v[hi:lo]` (00_scope R14) as a number. -/
theorem toNat_extract_eq {w : Nat} (x : BitVec w) (lo n : Nat) :
    (x.extractLsb' lo n).toNat = x.toNat / 2 ^ lo % 2 ^ n := by
  rw [BitVec.extractLsb'_toNat, Nat.shiftRight_eq_div_pow]

/-- A bit of a word as a number. -/
theorem getLsbD_eq_true_iff {w : Nat} (x : BitVec w) (i : Nat) :
    x.getLsbD i = true ↔ x.toNat / 2 ^ i % 2 = 1 := by
  rw [BitVec.getLsbD, Nat.testBit_eq_decide_div_mod_eq, decide_eq_true_iff]

end Sys2Proof
end

