-- ==== Sys2Proof/Laws/Decode.lean ====
section
/-! SUPPORT. The encoder and the decoder in numbers. -/

namespace Sys2Proof

/-- The INIT word as a number (30_encoding R82). -/
theorem encode_init_toNat (w : Width) (cap : BitVec 11) (len : BitVec 16) :
    (encode (.init w cap len)).toNat =
      len.toNat * 2 ^ 16 + cap.toNat * 2 ^ 5 + (widthBit w).toNat * 2 ^ 4 + 1 := by
  simp only [encode, toNat_append_eq]
  have : (1#4).toNat = 1 := rfl
  simp at *; omega

/-- The words of format N as numbers (30_encoding R83). -/
theorem encode_nb_toNat (nb : Nat) :
    (encode (.absorb nb)).toNat = (nb - 1) % 4 * 16 + 2 ∧
      (encode (.squeeze nb)).toNat = (nb - 1) % 4 * 16 + 4 := by
  constructor <;> simp only [encode, toNat_append_eq, nbm1] <;> simp

theorem opField_toNat (cmd : Word) : (opField cmd).toNat = cmd.toNat % 16 := by
  simp only [opField, toNat_extract_eq]; simp

theorem capField_toNat (cmd : Word) : (capField cmd).toNat = cmd.toNat / 2 ^ 5 % 2 ^ 11 := by
  simp only [capField, toNat_extract_eq]

theorem outlenField_toNat (cmd : Word) : (outlenField cmd).toNat = cmd.toNat / 2 ^ 16 := by
  have := cmd.isLt
  simp only [outlenField, toNat_extract_eq]; omega

theorem wField_iff (cmd : Word) : wField cmd = true ↔ cmd.toNat / 2 ^ 4 % 2 = 1 := getLsbD_eq_true_iff _ _

theorem nbField_eq (cmd : Word) : nbField cmd = cmd.toNat / 2 ^ 4 % 4 + 1 := by
  simp only [nbField, toNat_extract_eq]; rfl

theorem reservedN_eq (cmd : Word) : reservedN cmd = 0 ↔ cmd.toNat / 64 = 0 := by
  have := cmd.isLt
  rw [← BitVec.toNat_inj]; simp only [reservedN, toNat_extract_eq]; simp; omega

theorem reservedZ_eq (cmd : Word) : reservedZ cmd = 0 ↔ cmd.toNat / 16 = 0 := by
  have := cmd.isLt
  rw [← BitVec.toNat_inj]; simp only [reservedZ, toNat_extract_eq]; simp; omega

theorem opField_eq (cmd : Word) (n : Nat) (h : n < 16) : opField cmd = BitVec.ofNat 4 n ↔ cmd.toNat % 16 = n := by
  rw [← BitVec.toNat_inj, opField_toNat]; simp; omega

theorem byteCountOk_bounds {nb : Nat} (h : byteCountOk nb = true) : 1 ≤ nb ∧ nb ≤ 4 := by
  simpa [byteCountOk] using h

/-- Decoding in numbers: the opcode is the word mod 16, and a reserved field is 0 exactly when a quotient is. -/
theorem decode_eq (cmd : Word) :
    decode cmd =
      if cmd.toNat % 16 = 1 then .ok (.init (widthOfBit (wField cmd)) (capField cmd) (outlenField cmd))
      else if cmd.toNat % 16 = 2 then
        if cmd.toNat / 64 = 0 then .ok (.absorb (cmd.toNat / 2 ^ 4 % 4 + 1)) else .error .reservedBits
      else if cmd.toNat % 16 = 3 then if cmd.toNat / 16 = 0 then .ok .finalize else .error .reservedBits
      else if cmd.toNat % 16 = 4 then
        if cmd.toNat / 64 = 0 then .ok (.squeeze (cmd.toNat / 2 ^ 4 % 4 + 1)) else .error .reservedBits
      else .error .reservedOpcode := by
  have e1 : opField cmd = 0x1 ↔ _ := opField_eq cmd 1 (by omega)
  have e2 : opField cmd = 0x2 ↔ _ := opField_eq cmd 2 (by omega)
  have e3 : opField cmd = 0x3 ↔ _ := opField_eq cmd 3 (by omega)
  have e4 : opField cmd = 0x4 ↔ _ := opField_eq cmd 4 (by omega)
  simp only [decode, reservedN_eq, reservedZ_eq, nbField_eq, e1, e2, e3, e4]

/-- Everything `decode` can accept, with the operands as numbers. -/
theorem decode_cases {cmd : Word} {i : Instr} (h : decode cmd = .ok i) :
    (cmd.toNat % 16 = 1 ∧ i = .init (widthOfBit (wField cmd)) (capField cmd) (outlenField cmd)) ∨
    (cmd.toNat % 16 = 2 ∧ cmd.toNat / 64 = 0 ∧ i = .absorb (cmd.toNat / 2 ^ 4 % 4 + 1)) ∨
    (cmd.toNat = 3 ∧ i = .finalize) ∨
    (cmd.toNat % 16 = 4 ∧ cmd.toNat / 64 = 0 ∧ i = .squeeze (cmd.toNat / 2 ^ 4 % 4 + 1)) := by
  rw [decode_eq] at h
  split at h
  · cases h; simp_all
  · split at h
    · split at h <;> cases h; simp_all
    · split at h
      · split at h <;> cases h; refine .inr (.inr (.inl ⟨?_, rfl⟩)); omega
      · split at h
        · split at h <;> cases h; simp_all
        · cases h

end Sys2Proof
end

