-- ==== Sys2Proof/Laws/State.lean ====
section
/-! SUPPORT. One lemma per field per named update of the engine and of the state: what each update writes and what it
leaves. -/

namespace Sys2Proof.Machine

/-! ## `recordError` -/

@[simp] theorem recordError_lanes (e : ErrCode) (k : Engine) :
    (recordError e k).lanes = k.lanes := by
  unfold recordError; split <;> rfl
@[simp] theorem recordError_phase (e : ErrCode) (k : Engine) :
    (recordError e k).phase = k.phase := by
  unfold recordError; split <;> rfl
@[simp] theorem recordError_cfgW (e : ErrCode) (k : Engine) :
    (recordError e k).cfgW = k.cfgW := by
  unfold recordError; split <;> rfl
@[simp] theorem recordError_cfgCap (e : ErrCode) (k : Engine) :
    (recordError e k).cfgCap = k.cfgCap := by
  unfold recordError; split <;> rfl
@[simp] theorem recordError_cfgOutlen (e : ErrCode) (k : Engine) :
    (recordError e k).cfgOutlen = k.cfgOutlen := by
  unfold recordError; split <;> rfl
@[simp] theorem recordError_buf (e : ErrCode) (k : Engine) :
    (recordError e k).buf = k.buf := by
  unfold recordError; split <;> rfl
@[simp] theorem recordError_bufcnt (e : ErrCode) (k : Engine) :
    (recordError e k).bufcnt = k.bufcnt := by
  unfold recordError; split <;> rfl
@[simp] theorem recordError_cur (e : ErrCode) (k : Engine) :
    (recordError e k).cur = k.cur := by
  unfold recordError; split <;> rfl
@[simp] theorem recordError_outcnt (e : ErrCode) (k : Engine) :
    (recordError e k).outcnt = k.outcnt := by
  unfold recordError; split <;> rfl
@[simp] theorem recordError_din (e : ErrCode) (k : Engine) :
    (recordError e k).din = k.din := by
  unfold recordError; split <;> rfl
@[simp] theorem recordError_dout (e : ErrCode) (k : Engine) :
    (recordError e k).dout = k.dout := by
  unfold recordError; split <;> rfl
@[simp] theorem recordError_err (e : ErrCode) (k : Engine) :
    (recordError e k).err = if k.err = .none then e else k.err := by
  unfold recordError; split <;> rfl

/-! ## `initEngine` -/

@[simp] theorem initEngine_lanes (w : Width) (cap : BitVec 11) (len : BitVec 16) (k : Engine) :
    (initEngine w cap len k).lanes = Vector.replicate 25 0 := rfl
@[simp] theorem initEngine_phase (w : Width) (cap : BitVec 11) (len : BitVec 16) (k : Engine) :
    (initEngine w cap len k).phase = .absorbing := rfl
@[simp] theorem initEngine_cfgW (w : Width) (cap : BitVec 11) (len : BitVec 16) (k : Engine) :
    (initEngine w cap len k).cfgW = w := rfl
@[simp] theorem initEngine_cfgCap (w : Width) (cap : BitVec 11) (len : BitVec 16) (k : Engine) :
    (initEngine w cap len k).cfgCap = cap := rfl
@[simp] theorem initEngine_cfgOutlen (w : Width) (cap : BitVec 11) (len : BitVec 16) (k : Engine) :
    (initEngine w cap len k).cfgOutlen = len := rfl
@[simp] theorem initEngine_buf (w : Width) (cap : BitVec 11) (len : BitVec 16) (k : Engine) :
    (initEngine w cap len k).buf = Vector.replicate 168 0 := rfl
@[simp] theorem initEngine_bufcnt (w : Width) (cap : BitVec 11) (len : BitVec 16) (k : Engine) :
    (initEngine w cap len k).bufcnt = 0 := rfl
@[simp] theorem initEngine_cur (w : Width) (cap : BitVec 11) (len : BitVec 16) (k : Engine) :
    (initEngine w cap len k).cur = 0 := rfl
@[simp] theorem initEngine_outcnt (w : Width) (cap : BitVec 11) (len : BitVec 16) (k : Engine) :
    (initEngine w cap len k).outcnt = 0 := rfl
@[simp] theorem initEngine_din (w : Width) (cap : BitVec 11) (len : BitVec 16) (k : Engine) :
    (initEngine w cap len k).din = k.din := rfl
@[simp] theorem initEngine_dout (w : Width) (cap : BitVec 11) (len : BitVec 16) (k : Engine) :
    (initEngine w cap len k).dout = 0 := rfl
@[simp] theorem initEngine_err (w : Width) (cap : BitVec 11) (len : BitVec 16) (k : Engine) :
    (initEngine w cap len k).err = .none := rfl

/-! ## `finalizeEngine` -/

@[simp] theorem finalizeEngine_lanes (k : Engine) :
    (finalizeEngine k).lanes = absorbBlock k.cfgW k.lanes (padBlock k.cfgW k.buf.toList k.bufcnt.toNat) := rfl
@[simp] theorem finalizeEngine_phase (k : Engine) :
    (finalizeEngine k).phase = .squeezing := rfl
@[simp] theorem finalizeEngine_cfgW (k : Engine) :
    (finalizeEngine k).cfgW = k.cfgW := rfl
@[simp] theorem finalizeEngine_cfgCap (k : Engine) :
    (finalizeEngine k).cfgCap = k.cfgCap := rfl
@[simp] theorem finalizeEngine_cfgOutlen (k : Engine) :
    (finalizeEngine k).cfgOutlen = k.cfgOutlen := rfl
@[simp] theorem finalizeEngine_buf (k : Engine) :
    (finalizeEngine k).buf = Vector.replicate 168 0 := rfl
@[simp] theorem finalizeEngine_bufcnt (k : Engine) :
    (finalizeEngine k).bufcnt = 0 := rfl
@[simp] theorem finalizeEngine_cur (k : Engine) :
    (finalizeEngine k).cur = 0 := rfl
@[simp] theorem finalizeEngine_outcnt (k : Engine) :
    (finalizeEngine k).outcnt = 0 := rfl
@[simp] theorem finalizeEngine_din (k : Engine) :
    (finalizeEngine k).din = k.din := rfl
@[simp] theorem finalizeEngine_dout (k : Engine) :
    (finalizeEngine k).dout = k.dout := rfl
@[simp] theorem finalizeEngine_err (k : Engine) :
    (finalizeEngine k).err = k.err := rfl

/-! ## `deliver` -/

@[simp] theorem deliver_lanes (nb : Nat) (bs : List Byte) (k : Engine) :
    (deliver nb bs k).lanes = k.lanes := rfl
@[simp] theorem deliver_phase (nb : Nat) (bs : List Byte) (k : Engine) :
    (deliver nb bs k).phase = if k.outcnt + BitVec.ofNat 16 nb = k.cfgOutlen then .finalized else k.phase := rfl
@[simp] theorem deliver_cfgW (nb : Nat) (bs : List Byte) (k : Engine) :
    (deliver nb bs k).cfgW = k.cfgW := rfl
@[simp] theorem deliver_cfgCap (nb : Nat) (bs : List Byte) (k : Engine) :
    (deliver nb bs k).cfgCap = k.cfgCap := rfl
@[simp] theorem deliver_cfgOutlen (nb : Nat) (bs : List Byte) (k : Engine) :
    (deliver nb bs k).cfgOutlen = k.cfgOutlen := rfl
@[simp] theorem deliver_buf (nb : Nat) (bs : List Byte) (k : Engine) :
    (deliver nb bs k).buf = k.buf := rfl
@[simp] theorem deliver_bufcnt (nb : Nat) (bs : List Byte) (k : Engine) :
    (deliver nb bs k).bufcnt = k.bufcnt := rfl
@[simp] theorem deliver_cur (nb : Nat) (bs : List Byte) (k : Engine) :
    (deliver nb bs k).cur = k.cur := rfl
@[simp] theorem deliver_outcnt (nb : Nat) (bs : List Byte) (k : Engine) :
    (deliver nb bs k).outcnt = k.outcnt + BitVec.ofNat 16 nb := rfl
@[simp] theorem deliver_din (nb : Nat) (bs : List Byte) (k : Engine) :
    (deliver nb bs k).din = k.din := rfl
@[simp] theorem deliver_dout (nb : Nat) (bs : List Byte) (k : Engine) :
    (deliver nb bs k).dout = packWord bs := rfl
@[simp] theorem deliver_err (nb : Nat) (bs : List Byte) (k : Engine) :
    (deliver nb bs k).err = k.err := rfl

/-! ## `absorbByte`: the configuration, the phase and the output side stay -/

@[simp] theorem absorbByte_phase (v : Byte) (k : Engine) :
    (absorbByte v k).phase = k.phase := by
  unfold absorbByte; dsimp only; split <;> rfl
@[simp] theorem absorbByte_cfgW (v : Byte) (k : Engine) :
    (absorbByte v k).cfgW = k.cfgW := by
  unfold absorbByte; dsimp only; split <;> rfl
@[simp] theorem absorbByte_cfgCap (v : Byte) (k : Engine) :
    (absorbByte v k).cfgCap = k.cfgCap := by
  unfold absorbByte; dsimp only; split <;> rfl
@[simp] theorem absorbByte_cfgOutlen (v : Byte) (k : Engine) :
    (absorbByte v k).cfgOutlen = k.cfgOutlen := by
  unfold absorbByte; dsimp only; split <;> rfl
@[simp] theorem absorbByte_cur (v : Byte) (k : Engine) :
    (absorbByte v k).cur = k.cur := by
  unfold absorbByte; dsimp only; split <;> rfl
@[simp] theorem absorbByte_outcnt (v : Byte) (k : Engine) :
    (absorbByte v k).outcnt = k.outcnt := by
  unfold absorbByte; dsimp only; split <;> rfl
@[simp] theorem absorbByte_din (v : Byte) (k : Engine) :
    (absorbByte v k).din = k.din := by
  unfold absorbByte; dsimp only; split <;> rfl
@[simp] theorem absorbByte_dout (v : Byte) (k : Engine) :
    (absorbByte v k).dout = k.dout := by
  unfold absorbByte; dsimp only; split <;> rfl
@[simp] theorem absorbByte_err (v : Byte) (k : Engine) :
    (absorbByte v k).err = k.err := by
  unfold absorbByte; dsimp only; split <;> rfl

/-! ## `absorbBytes`: the same for any number of bytes -/

@[simp] theorem absorbBytes_phase (vs : List Byte) (k : Engine) :
    (absorbBytes vs k).phase = k.phase := by
  induction vs generalizing k with
  | nil => rfl
  | cons v vs ih => exact (ih (absorbByte v k)).trans (absorbByte_phase v k)
@[simp] theorem absorbBytes_cfgW (vs : List Byte) (k : Engine) :
    (absorbBytes vs k).cfgW = k.cfgW := by
  induction vs generalizing k with
  | nil => rfl
  | cons v vs ih => exact (ih (absorbByte v k)).trans (absorbByte_cfgW v k)
@[simp] theorem absorbBytes_cfgCap (vs : List Byte) (k : Engine) :
    (absorbBytes vs k).cfgCap = k.cfgCap := by
  induction vs generalizing k with
  | nil => rfl
  | cons v vs ih => exact (ih (absorbByte v k)).trans (absorbByte_cfgCap v k)
@[simp] theorem absorbBytes_cfgOutlen (vs : List Byte) (k : Engine) :
    (absorbBytes vs k).cfgOutlen = k.cfgOutlen := by
  induction vs generalizing k with
  | nil => rfl
  | cons v vs ih => exact (ih (absorbByte v k)).trans (absorbByte_cfgOutlen v k)
@[simp] theorem absorbBytes_cur (vs : List Byte) (k : Engine) :
    (absorbBytes vs k).cur = k.cur := by
  induction vs generalizing k with
  | nil => rfl
  | cons v vs ih => exact (ih (absorbByte v k)).trans (absorbByte_cur v k)
@[simp] theorem absorbBytes_outcnt (vs : List Byte) (k : Engine) :
    (absorbBytes vs k).outcnt = k.outcnt := by
  induction vs generalizing k with
  | nil => rfl
  | cons v vs ih => exact (ih (absorbByte v k)).trans (absorbByte_outcnt v k)
@[simp] theorem absorbBytes_din (vs : List Byte) (k : Engine) :
    (absorbBytes vs k).din = k.din := by
  induction vs generalizing k with
  | nil => rfl
  | cons v vs ih => exact (ih (absorbByte v k)).trans (absorbByte_din v k)
@[simp] theorem absorbBytes_dout (vs : List Byte) (k : Engine) :
    (absorbBytes vs k).dout = k.dout := by
  induction vs generalizing k with
  | nil => rfl
  | cons v vs ih => exact (ih (absorbByte v k)).trans (absorbByte_dout v k)
@[simp] theorem absorbBytes_err (vs : List Byte) (k : Engine) :
    (absorbBytes vs k).err = k.err := by
  induction vs generalizing k with
  | nil => rfl
  | cons v vs ih => exact (ih (absorbByte v k)).trans (absorbByte_err v k)

/-! ## `refillBlock`, `squeezeByte`, `squeezeBytes`: only the lanes and the cursor move -/

@[simp] theorem refillBlock_phase (k : Engine) :
    (refillBlock k).phase = k.phase := by
  unfold refillBlock; split <;> rfl
@[simp] theorem refillBlock_cfgW (k : Engine) :
    (refillBlock k).cfgW = k.cfgW := by
  unfold refillBlock; split <;> rfl
@[simp] theorem refillBlock_cfgCap (k : Engine) :
    (refillBlock k).cfgCap = k.cfgCap := by
  unfold refillBlock; split <;> rfl
@[simp] theorem refillBlock_cfgOutlen (k : Engine) :
    (refillBlock k).cfgOutlen = k.cfgOutlen := by
  unfold refillBlock; split <;> rfl
@[simp] theorem refillBlock_buf (k : Engine) :
    (refillBlock k).buf = k.buf := by
  unfold refillBlock; split <;> rfl
@[simp] theorem refillBlock_bufcnt (k : Engine) :
    (refillBlock k).bufcnt = k.bufcnt := by
  unfold refillBlock; split <;> rfl
@[simp] theorem refillBlock_outcnt (k : Engine) :
    (refillBlock k).outcnt = k.outcnt := by
  unfold refillBlock; split <;> rfl
@[simp] theorem refillBlock_din (k : Engine) :
    (refillBlock k).din = k.din := by
  unfold refillBlock; split <;> rfl
@[simp] theorem refillBlock_dout (k : Engine) :
    (refillBlock k).dout = k.dout := by
  unfold refillBlock; split <;> rfl
@[simp] theorem refillBlock_err (k : Engine) :
    (refillBlock k).err = k.err := by
  unfold refillBlock; split <;> rfl
@[simp] theorem squeezeByte_phase (k : Engine) :
    (squeezeByte k).2.phase = k.phase := refillBlock_phase k
@[simp] theorem squeezeByte_cfgW (k : Engine) :
    (squeezeByte k).2.cfgW = k.cfgW := refillBlock_cfgW k
@[simp] theorem squeezeByte_cfgCap (k : Engine) :
    (squeezeByte k).2.cfgCap = k.cfgCap := refillBlock_cfgCap k
@[simp] theorem squeezeByte_cfgOutlen (k : Engine) :
    (squeezeByte k).2.cfgOutlen = k.cfgOutlen := refillBlock_cfgOutlen k
@[simp] theorem squeezeByte_buf (k : Engine) :
    (squeezeByte k).2.buf = k.buf := refillBlock_buf k
@[simp] theorem squeezeByte_bufcnt (k : Engine) :
    (squeezeByte k).2.bufcnt = k.bufcnt := refillBlock_bufcnt k
@[simp] theorem squeezeByte_outcnt (k : Engine) :
    (squeezeByte k).2.outcnt = k.outcnt := refillBlock_outcnt k
@[simp] theorem squeezeByte_din (k : Engine) :
    (squeezeByte k).2.din = k.din := refillBlock_din k
@[simp] theorem squeezeByte_dout (k : Engine) :
    (squeezeByte k).2.dout = k.dout := refillBlock_dout k
@[simp] theorem squeezeByte_err (k : Engine) :
    (squeezeByte k).2.err = k.err := refillBlock_err k
@[simp] theorem squeezeBytes_phase (n : Nat) (k : Engine) :
    (squeezeBytes n k).2.phase = k.phase := by
  induction n generalizing k with
  | zero => rfl
  | succ n ih => exact (ih (squeezeByte k).2).trans (squeezeByte_phase k)
@[simp] theorem squeezeBytes_cfgW (n : Nat) (k : Engine) :
    (squeezeBytes n k).2.cfgW = k.cfgW := by
  induction n generalizing k with
  | zero => rfl
  | succ n ih => exact (ih (squeezeByte k).2).trans (squeezeByte_cfgW k)
@[simp] theorem squeezeBytes_cfgCap (n : Nat) (k : Engine) :
    (squeezeBytes n k).2.cfgCap = k.cfgCap := by
  induction n generalizing k with
  | zero => rfl
  | succ n ih => exact (ih (squeezeByte k).2).trans (squeezeByte_cfgCap k)
@[simp] theorem squeezeBytes_cfgOutlen (n : Nat) (k : Engine) :
    (squeezeBytes n k).2.cfgOutlen = k.cfgOutlen := by
  induction n generalizing k with
  | zero => rfl
  | succ n ih => exact (ih (squeezeByte k).2).trans (squeezeByte_cfgOutlen k)
@[simp] theorem squeezeBytes_buf (n : Nat) (k : Engine) :
    (squeezeBytes n k).2.buf = k.buf := by
  induction n generalizing k with
  | zero => rfl
  | succ n ih => exact (ih (squeezeByte k).2).trans (squeezeByte_buf k)
@[simp] theorem squeezeBytes_bufcnt (n : Nat) (k : Engine) :
    (squeezeBytes n k).2.bufcnt = k.bufcnt := by
  induction n generalizing k with
  | zero => rfl
  | succ n ih => exact (ih (squeezeByte k).2).trans (squeezeByte_bufcnt k)
@[simp] theorem squeezeBytes_outcnt (n : Nat) (k : Engine) :
    (squeezeBytes n k).2.outcnt = k.outcnt := by
  induction n generalizing k with
  | zero => rfl
  | succ n ih => exact (ih (squeezeByte k).2).trans (squeezeByte_outcnt k)
@[simp] theorem squeezeBytes_din (n : Nat) (k : Engine) :
    (squeezeBytes n k).2.din = k.din := by
  induction n generalizing k with
  | zero => rfl
  | succ n ih => exact (ih (squeezeByte k).2).trans (squeezeByte_din k)
@[simp] theorem squeezeBytes_dout (n : Nat) (k : Engine) :
    (squeezeBytes n k).2.dout = k.dout := by
  induction n generalizing k with
  | zero => rfl
  | succ n ih => exact (ih (squeezeByte k).2).trans (squeezeByte_dout k)
@[simp] theorem squeezeBytes_err (n : Nat) (k : Engine) :
    (squeezeBytes n k).2.err = k.err := by
  induction n generalizing k with
  | zero => rfl
  | succ n ih => exact (ih (squeezeByte k).2).trans (squeezeByte_err k)

/-! ## `observe` and `resetBlock` -/

@[simp] theorem observe_engine (h : Nat) (r : Reg) (v : Word) (s : State) :
    (observe h r v s).engine = s.engine := rfl
@[simp] theorem observe_kpeBase (h : Nat) (r : Reg) (v : Word) (s : State) :
    (observe h r v s).kpeBase = s.kpeBase := rfl
@[simp] theorem observe_hosts (h : Nat) (r : Reg) (v : Word) (s : State) :
    (observe h r v s).hosts = s.hosts := rfl
@[simp] theorem observe_schedule (h : Nat) (r : Reg) (v : Word) (s : State) :
    (observe h r v s).schedule = s.schedule := rfl
@[simp] theorem observe_observed (h : Nat) (r : Reg) (v : Word) (s : State) :
    (observe h r v s).observed = s.observed ++ [⟨h, r, v⟩] := rfl
@[simp] theorem observe_freeCount (h : Nat) (r : Reg) (v : Word) (s : State) :
    (observe h r v s).freeCount = s.freeCount := rfl
@[simp] theorem resetBlock_engine (s : State) :
    (resetBlock s).engine = Engine.reset := rfl
@[simp] theorem resetBlock_kpeBase (s : State) :
    (resetBlock s).kpeBase = s.kpeBase := rfl
@[simp] theorem resetBlock_hosts (s : State) :
    (resetBlock s).hosts = s.hosts := rfl
@[simp] theorem resetBlock_schedule (s : State) :
    (resetBlock s).schedule = s.schedule := rfl
@[simp] theorem resetBlock_observed (s : State) :
    (resetBlock s).observed = s.observed := rfl
@[simp] theorem resetBlock_freeCount (s : State) :
    (resetBlock s).freeCount = s.freeCount := rfl

end Sys2Proof.Machine
end

