-- ==== Sys2Proof/Laws/Exec.lean ====
section
/-! SUPPORT. What a command, an access and a turn can do, said once. -/

namespace Sys2Proof.Machine

@[simp] theorem andThen_next {σ φ ρ : Type} (s : σ) (f : σ → Host.Outcome σ φ ρ) :
    andThen (.next s) f = f s := rfl

theorem andThen_eq_next {σ φ ρ : Type} {o : Host.Outcome σ φ ρ} {f : σ → Host.Outcome σ φ ρ} {t : σ}
    (h : andThen o f = .next t) : ∃ s, o = .next s ∧ f s = .next t := by
  cases o with
  | next s => exact ⟨s, rfl, h⟩
  | fault r => cases h
  | refused r => cases h

/-- Taking an error is keeping the first one (60_exceptions R223, R224). -/
theorem raise_eq_noteError (e : ErrCode) (s : State) : raise e s = .next (noteError e s) := by
  unfold raise recordError noteError
  split
  · simp_all
  · simp

theorem executeCommand_of_ok {cmd : Word} {i : Instr} (h : decode cmd = .ok i) (s : State) :
    executeCommand cmd s = exec i s := by
  simp [executeCommand, h]

theorem executeCommand_of_error {cmd : Word} {e : Illegal} (h : decode cmd = .error e) (s : State) :
    executeCommand cmd s = .next (noteError .illegalCommand s) := by
  simp [executeCommand, h, raise_eq_noteError]

/-- The supported configurations (43_commands R173). -/
theorem validConfig_iff (w : Width) (cap : BitVec 11) (len : BitVec 16) :
    validConfig w cap len = true ↔
      ((w = .kpe200 ∧ cap = 168) ∨ (w = .kpe1600 ∧ cap = 256)) ∧ 1 ≤ len.toNat := by
  simp [validConfig]

/-! ## The commands: an accepted one has its effect, the others only record an error -/

theorem exec_init_of_valid {w : Width} {cap : BitVec 11} {len : BitVec 16} (h : validConfig w cap len = true)
    (s : State) : exec (.init w cap len) s = .next { s with engine := initEngine w cap len s.engine } := by
  simp [exec, execInit, h]

theorem exec_absorb_of_absorbing {s : State} (h : s.engine.phase = .absorbing) (nb : Nat) :
    exec (.absorb nb) s = .next { s with engine := absorbBytes (dinBytes nb s.engine.din) s.engine } := by
  simp [exec, execAbsorb, h]

theorem exec_finalize_of_absorbing {s : State} (h : s.engine.phase = .absorbing) :
    exec .finalize s = .next { s with engine := finalizeEngine s.engine } := by
  simp [exec, execFinalize, h]

theorem exec_squeeze_of_squeezing {s : State} {nb : Nat} (h : s.engine.phase = .squeezing)
    (hn : s.engine.outcnt.toNat + nb ≤ s.engine.cfgOutlen.toNat) :
    exec (.squeeze nb) s = .next { s with engine := squeezeEngine nb s.engine } := by
  simp [exec, execSqueeze, h, hn]

/-- A command of a machine: either it is accepted and writes the engine alone, or it only records its error. -/
theorem exec_cases (i : Instr) (s : State) :
    (Accepted i s.engine ∧ ∃ k, exec i s = .next { s with engine := k }) ∨
      (¬Accepted i s.engine ∧ exec i s = raise (errorOf i) s) := by
  cases i with
  | init w cap len =>
    by_cases h : validConfig w cap len = true
    · exact .inl ⟨h, _, exec_init_of_valid h s⟩
    · exact .inr ⟨h, by simp [exec, execInit, h, errorOf]⟩
  | absorb nb =>
    by_cases h : s.engine.phase = .absorbing
    · exact .inl ⟨h, _, exec_absorb_of_absorbing h nb⟩
    · exact .inr ⟨h, by simp [exec, execAbsorb, h, errorOf]⟩
  | finalize =>
    by_cases h : s.engine.phase = .absorbing
    · exact .inl ⟨h, _, exec_finalize_of_absorbing h⟩
    · exact .inr ⟨h, by simp [exec, execFinalize, h, errorOf]⟩
  | squeeze nb =>
    by_cases h : s.engine.phase = .squeezing
    · by_cases hn : s.engine.outcnt.toNat + nb ≤ s.engine.cfgOutlen.toNat
      · exact .inl ⟨⟨h, hn⟩, _, exec_squeeze_of_squeezing h hn⟩
      · exact .inr ⟨fun a => hn a.2, by simp [exec, execSqueeze, h, errorOf]; omega⟩
    · exact .inr ⟨fun a => h a.1, by simp [exec, execSqueeze, h, errorOf]⟩

/-- Every command completes, and writes nothing outside the engine. -/
theorem exec_writes_engine (i : Instr) (s : State) : ∃ k, exec i s = .next { s with engine := k } := by
  rcases exec_cases i s with ⟨-, h⟩ | ⟨-, h⟩
  · exact h
  · exact ⟨_, h⟩

theorem executeCommand_writes_engine (cmd : Word) (s : State) :
    ∃ k, executeCommand cmd s = .next { s with engine := k } := by
  unfold executeCommand
  split
  · exact exec_writes_engine _ s
  · exact ⟨_, rfl⟩

/-- A write of the block completes, and writes nothing outside the engine (20_memory R54). -/
theorem memWrite_writes_engine (r : Reg) (v : Word) (s : State) : ∃ k, memWrite r v s = .next { s with engine := k } := by
  cases r with
  | cmd => exact executeCommand_writes_engine v s
  | din => exact ⟨_, rfl⟩
  | dout => exact ⟨s.engine, rfl⟩
  | status => exact ⟨s.engine, rfl⟩
  | config => exact ⟨s.engine, rfl⟩
  | outcnt => exact ⟨s.engine, rfl⟩
  | reserved18 => exact ⟨s.engine, rfl⟩
  | reserved1C => exact ⟨s.engine, rfl⟩

/-! ## The engine alone decides what a command or a write does to it -/

theorem exec_engine_congr (i : Instr) {s t : State} (h : s.engine = t.engine) :
    ∃ k, exec i s = .next { s with engine := k } ∧ exec i t = .next { t with engine := k } := by
  cases i with
  | init w cap len =>
    by_cases hv : validConfig w cap len = true
    · exact ⟨_, exec_init_of_valid hv s, by rw [h]; exact exec_init_of_valid hv t⟩
    · exact ⟨_, by simp [exec, execInit, hv, raise]; rfl, by simp [exec, execInit, hv, raise, h]⟩
  | absorb nb =>
    simp only [exec, execAbsorb, h]
    split <;> exact ⟨_, rfl, by simp [raise, h]⟩
  | finalize =>
    simp only [exec, execFinalize, h]
    split <;> exact ⟨_, rfl, by simp [raise, h]⟩
  | squeeze nb =>
    simp only [exec, execSqueeze, h]
    split
    · exact ⟨_, rfl, by simp [raise, h]⟩
    · split <;> exact ⟨_, rfl, by simp [raise, h]⟩

theorem memWrite_engine_congr (r : Reg) (v : Word) {s t : State} (h : s.engine = t.engine) :
    ∃ k, memWrite r v s = .next { s with engine := k } ∧ memWrite r v t = .next { t with engine := k } := by
  cases r with
  | cmd =>
    simp only [memWrite, executeCommand]
    split
    · exact exec_engine_congr _ h
    · exact ⟨_, rfl, by simp [raise, h]⟩
  | din => exact ⟨_, rfl, by simp [memWrite, h]⟩
  | dout => exact ⟨s.engine, rfl, by simp [memWrite, h]⟩
  | status => exact ⟨s.engine, rfl, by simp [memWrite, h]⟩
  | config => exact ⟨s.engine, rfl, by simp [memWrite, h]⟩
  | outcnt => exact ⟨s.engine, rfl, by simp [memWrite, h]⟩
  | reserved18 => exact ⟨s.engine, rfl, by simp [memWrite, h]⟩
  | reserved1C => exact ⟨s.engine, rfl, by simp [memWrite, h]⟩

/-! ## Accesses -/

@[simp] theorem target_readOf (base : Nat) (r : Reg) : target base (readOf base r) = .ok r := by
  cases r <;> simp [target, readOf, regOffset, regAt]

@[simp] theorem target_writeOf (base : Nat) (r : Reg) (v : Word) : target base (writeOf base r v) = .ok r := by
  cases r <;> simp [target, writeOf, regOffset, regAt]

theorem serve_readOf (h : Nat) (r : Reg) (s : State) :
    serve h (readOf s.kpeBase r) s = .next (observe h r (memRead r s.engine) s) := by
  unfold serve; rw [target_readOf]; rfl

theorem serve_writeOf (h : Nat) (r : Reg) (v : Word) (s : State) :
    serve h (writeOf s.kpeBase r v) s = memWrite r v s := by
  unfold serve; rw [target_writeOf]; rfl

/-- Everything one access can do: no step, a value for the host, or a write of the engine (20_memory R54, R64). -/
theorem serve_cases (h : Nat) (a : Access) (s : State) :
    (∃ e, target s.kpeBase a = .error e ∧ serve h a s = .refused e) ∨
    (∃ r, target s.kpeBase a = .ok r ∧ a.kind = .read ∧
      serve h a s = .next (observe h r (memRead r s.engine) s)) ∨
    (∃ r v k, target s.kpeBase a = .ok r ∧ a.kind = .write v ∧ serve h a s = memWrite r v s ∧
      memWrite r v s = .next { s with engine := k }) := by
  unfold serve
  cases ht : target s.kpeBase a with
  | error e => exact .inl ⟨e, rfl, rfl⟩
  | ok r =>
    cases hk : a.kind with
    | read => exact .inr (.inl ⟨r, rfl, rfl, rfl⟩)
    | write v =>
      obtain ⟨k, hw⟩ := memWrite_writes_engine r v s
      exact .inr (.inr ⟨r, v, k, rfl, rfl, rfl, hw⟩)

/-- An access reads and writes neither the queues nor the schedule. -/
theorem serve_queues (h : Nat) (a : Access) (s : State) (qs : List (List Access)) (sch : List Turn) :
    (∃ e, serve h a s = .refused e ∧ serve h a { s with hosts := qs, schedule := sch } = .refused e) ∨
    ∃ t, serve h a s = .next t ∧ t.hosts = s.hosts ∧ t.schedule = s.schedule ∧ t.kpeBase = s.kpeBase ∧
      serve h a { s with hosts := qs, schedule := sch } = .next { t with hosts := qs, schedule := sch } := by
  rcases serve_cases h a s with ⟨e, h1, he⟩ | ⟨r, h1, h2, he⟩ | ⟨r, v, k, h1, h2, he, hk⟩
  · exact .inl ⟨e, he, by simp [serve, h1]⟩
  · exact .inr ⟨_, he, rfl, rfl, rfl, by simp [serve, h1, h2]; rfl⟩
  · obtain ⟨k', a1, a2⟩ := memWrite_engine_congr r v (s := s) (t := { s with hosts := qs, schedule := sch }) rfl
    exact .inr ⟨_, he.trans a1, rfl, rfl, rfl, by simp only [serve, h1, h2]; exact a2⟩

/-- Everything a held access can do when the reset arrives (70_reset R261; 93 U3). -/
theorem serveHeld_cases (h : Nat) (a : Access) (s : State) :
    (∃ e, serveHeld h a s = .refused e) ∨
    (∃ r v, serveHeld h a s = .next (observe h r v { s with freeCount := s.freeCount + 1 })) ∨
    (∃ r v, serveHeld h a s = memWrite r v { s with freeCount := s.freeCount + 1 }) ∨
    serveHeld h a s = .next { s with freeCount := s.freeCount + 1 } := by
  unfold serveHeld
  split
  · exact .inl ⟨_, rfl⟩
  · split
    · exact .inr (.inl ⟨_, _, rfl⟩)
    · split
      · exact .inr (.inr (.inl ⟨_, _, rfl⟩))
      · exact .inr (.inr (.inr rfl))

/-- Taking an access keeps the number of hosts. -/
theorem takeAccess_length {h : Nat} {qs qs' : List (List Access)} {a : Access}
    (e : takeAccess h qs = some (a, qs')) : qs'.length = qs.length := by
  induction qs generalizing h qs' with
  | nil => cases h <;> cases e
  | cons q qs ih =>
    cases h with
    | zero =>
      cases q with
      | nil => cases e
      | cons b q => cases e; rfl
    | succ h =>
      simp only [takeAccess, Option.map_eq_some_iff] at e
      obtain ⟨⟨b, qs₁⟩, h1, h2⟩ := e
      cases h2
      simp [ih h1]

/-- Taking an access takes the oldest one of its host and leaves every other in place (20_memory R67). -/
theorem takeAccess_order {h : Nat} {qs qs' : List (List Access)} {a : Access}
    (e : takeAccess h qs = some (a, qs')) (g : Nat) :
    qs.getD g [] = (if h = g then [a] else []) ++ qs'.getD g [] := by
  induction qs generalizing h qs' g with
  | nil => cases h <;> cases e
  | cons q qs ih =>
    cases h with
    | zero =>
      cases q with
      | nil => cases e
      | cons b q => cases e; cases g <;> simp
    | succ h =>
      simp only [takeAccess, Option.map_eq_some_iff] at e
      obtain ⟨⟨b, qs₁⟩, h1, h2⟩ := e
      cases h2
      cases g with
      | zero => simp
      | succ g => simpa using ih h1 g

theorem takeAccess_pushAccess (a : Access) (qs : List (List Access)) :
    takeAccess 0 (pushAccess a qs) = some (a, if qs = [] then [[]] else qs) := by
  cases qs <;> rfl

/-! ## A step -/

theorem step_nil {s : State} (h : s.schedule = []) : step s = .next s := by
  simp [step, advance, h]

theorem step_cons {s : State} {t : Turn} {rest : List Turn} (h : s.schedule = t :: rest) :
    step s = takeTurn t { s with schedule := rest } := by
  simp [step, advance, h]

theorem run_succ_of_next {s t : State} (h : step s = .next t) (n : Nat) :
    Host.Core.run core (n + 1) s = Host.Core.run core n t := by
  simp only [Host.Core.run]
  rw [show core.step s = .next t from h]

theorem run_succ_of_refused {s : State} {r : Refusal} (h : step s = .refused r) (n : Nat) :
    Host.Core.run core (n + 1) s = .refused r := by
  simp only [Host.Core.run]
  rw [show core.step s = .refused r from h]

/-- A property of the engine that a reset gives and every write of the block keeps is kept by every step. -/
theorem step_engine_induction {P : Engine → Prop} (hreset : P Engine.reset)
    (hwrite : ∀ r v (s t : State), P s.engine → memWrite r v s = .next t → P t.engine)
    {s t : State} (hs : P s.engine) (h : step s = .next t) : P t.engine := by
  have held : ∀ (l : List Nat) (s t : State), P s.engine → serveAllHeld l s = .next t → P t.engine := by
    intro l
    induction l with
    | nil => intro s t hs h; cases h; exact hs
    | cons g l ih =>
      intro s t hs h
      unfold serveAllHeld at h
      split at h
      · exact ih s t hs h
      · obtain ⟨u, hu, ht⟩ := andThen_eq_next h
        refine ih u t ?_ ht
        rcases serveHeld_cases g _ _ with ⟨e, he⟩ | ⟨r, v, he⟩ | ⟨r, v, he⟩ | he <;> rw [he] at hu
        · cases hu
        · cases hu; exact hs
        · refine hwrite r v _ u ?_ hu; exact hs
        · cases hu; exact hs
  cases hsch : s.schedule with
  | nil => rw [step_nil hsch] at h; cases h; exact hs
  | cons turn rest =>
    rw [step_cons hsch] at h
    cases turn with
    | host g =>
      simp only [takeTurn] at h
      split at h
      · cases h; exact hs
      · rcases serve_cases g _ _ with ⟨e, -, he⟩ | ⟨r, -, -, he⟩ | ⟨r, v, k, -, -, he, hk⟩ <;> rw [he] at h
        · cases h
        · cases h; exact hs
        · refine hwrite r v _ t ?_ h; exact hs
    | reset => cases h; exact hreset
    | resetDuring g l =>
      simp only [takeTurn] at h
      split at h
      · cases h; exact hreset
      · split at h
        · exact held l _ t hreset h
        · cases h; exact hreset

end Sys2Proof.Machine
end

