-- ==== Sys2Proof/Laws/Flags.lean ====
section
/-! SUPPORT. The words hosts read, as numbers of their fields. -/

namespace Sys2Proof.Machine

/-- STATUS as a number (20_memory R59). -/
theorem status_toNat (k : Engine) :
    (memRead .status k).toNat =
      k.cur.toNat * 2 ^ 16 + k.bufcnt.toNat * 2 ^ 8 + (errCode k.err).toNat * 2 ^ 2 + (phaseCode k.phase).toNat := by
  simp only [memRead, statusValue, toNat_append_eq]
  simp; omega

/-- CONFIG as a number (20_memory R60). -/
theorem config_toNat (k : Engine) :
    (memRead .config k).toNat =
      k.cfgOutlen.toNat * 2 ^ 16 + k.cfgCap.toNat * 2 ^ 5 + (widthBit k.cfgW).toNat * 2 ^ 4 := by
  simp only [memRead, configValue, toNat_append_eq]
  simp; omega

/-- The register an aligned offset of the block has (20_memory R51, R53). -/
theorem regAt_eq_none_iff {n : Nat} (h : n < 32) : regAt n = none ↔ n % 4 ≠ 0 := by
  interval_cases n <;> simp [regAt]

end Sys2Proof.Machine
end

