-- ==== Sys2Proof/Laws/Grid.lean ====
section
/-! SUPPORT. Grids of lanes: reading a lane of a built grid, and equality lane by lane. -/

namespace Sys2Proof.Machine

theorem lane_index_lt (x y : Fin 5) : 5 * y.val + x.val < 25 := by omega

/-- A lane is the entry at index `5y + x` (00_scope R15). -/
theorem lane_eq_getElem {w : Nat} (A : Grid w) (x y : Fin 5) :
    lane A x y = A[5 * y.val + x.val]'(lane_index_lt x y) := by
  have h := lane_index_lt x y
  simp [lane, List.getD_eq_getElem?_getD, h]

@[simp] theorem lane_ofLanes {w : Nat} (f : Fin 5 → Fin 5 → BitVec w) (x y : Fin 5) :
    lane (ofLanes f) x y = f x y := by
  fin_cases x <;> fin_cases y <;> rfl

/-- Two grids with the same lanes are the same. -/
theorem grid_ext {w : Nat} {A B : Grid w} (h : ∀ x y, lane A x y = lane B x y) : A = B := by
  refine Vector.ext fun i hi => ?_
  have := h ⟨i % 5, by omega⟩ ⟨i / 5, by omega⟩
  simp only [lane_eq_getElem] at this
  have e : 5 * (i / 5) + i % 5 = i := by omega
  simpa [e] using this

/-- A rotation by 0 changes nothing (00_scope R16). -/
@[simp] theorem rotateLeft_zero {w : Nat} (v : BitVec w) : v.rotateLeft 0 = v := by
  simp [BitVec.rotateLeft, BitVec.rotateLeftAux, BitVec.ushiftRight_eq_zero]

end Sys2Proof.Machine
end

