-- ==== Sys2Proof/Laws/Sponge.lean ====
section
/-! SUPPORT. What a byte XORed into the state does: to each lane, to each state byte, and after another byte. -/

namespace Sys2Proof.Machine

theorem rateBytes_pos (c : Width) : 0 < rateBytes c := by cases c <;> decide

theorem rateBytes_ge_four (c : Width) : 4 ≤ rateBytes c := by cases c <;> decide

theorem rateBytes_le (c : Width) : rateBytes c ≤ 168 := by cases c <;> decide

theorem laneBytes_pos (c : Width) : 0 < laneBytes c := by cases c <;> decide

/-- The rate is a part of the state (41_sponge R141). -/
theorem rateBytes_lt_state (c : Width) : rateBytes c < 25 * laneBytes c := by cases c <;> decide

theorem lane_of_state_byte_lt {c : Width} {i : Nat} (h : i < 25 * laneBytes c) : i / laneBytes c < 25 :=
  Nat.div_lt_of_lt_mul (by rwa [Nat.mul_comm])

theorem toList_getD_eq_getElem {α : Type} {n : Nat} (v : Vector α n) (i : Nat) (d : α) (h : i < n) :
    v.toList.getD i d = v[i] := by
  simp [List.getD_eq_getElem?_getD, h]

/-- `SetXor` lane by lane (41_sponge R142). -/
theorem getElem_setXor (c : Width) (S : Vector Lane 25) (i : Nat) (v : Byte) (j : Nat) (hj : j < 25) :
    (setXor c S i v)[j] =
      if i / laneBytes c = j then S[j] ^^^ (v.setWidth 64 <<< (8 * (i % laneBytes c))) else S[j] := by
  unfold setXor
  rw [Vector.getElem_setIfInBounds]
  split
  · rename_i h; subst h; rw [toList_getD_eq_getElem S _ _ hj]
  · rfl

theorem setXor_zero (c : Width) (S : Vector Lane 25) (i : Nat) : setXor c S i 0 = S := by
  refine Vector.ext fun j hj => ?_
  rw [getElem_setXor _ _ _ _ _ hj]
  split <;> simp

theorem setXor_setXor (c : Width) (S : Vector Lane 25) (i : Nat) (u v : Byte) :
    setXor c (setXor c S i u) i v = setXor c S i (u ^^^ v) := by
  refine Vector.ext fun j hj => ?_
  simp only [getElem_setXor _ _ _ _ _ hj]
  split
  · rw [BitVec.xor_assoc, BitVec.setWidth_xor, BitVec.shiftLeft_xor_distrib]
  · rfl

theorem setXor_comm (c : Width) (S : Vector Lane 25) (i j : Nat) (u v : Byte) :
    setXor c (setXor c S i u) j v = setXor c (setXor c S j v) i u := by
  refine Vector.ext fun l hl => ?_
  simp only [getElem_setXor _ _ _ _ _ hl]
  split <;> split <;> first | rfl | (rw [BitVec.xor_assoc, BitVec.xor_assoc]; congr 1; exact BitVec.xor_comm _ _)

/-- A byte shifted into place, read at any place of a lane. -/
theorem extract_shifted_byte (v : Byte) (a b : Nat) (hb : b < 8) :
    (v.setWidth 64 <<< (8 * a)).extractLsb' (8 * b) 8 = if a = b then v else 0 := by
  refine BitVec.eq_of_getLsbD_eq fun i hi => ?_
  rw [BitVec.getLsbD_extractLsb', BitVec.getLsbD_shiftLeft, BitVec.getLsbD_setWidth]
  split
  · subst a
    have h1 : 8 * b + i < 64 := by omega
    have h2 : ¬8 * b + i < 8 * b := by omega
    have h3 : 8 * b + i - 8 * b = i := by omega
    simp [hi, h1, h2, h3, show i < 64 by omega]
  · by_cases h : 8 * b + i < 8 * a
    · simp [h]
    · have : 8 ≤ 8 * b + i - 8 * a := by omega
      simp [BitVec.getLsbD_of_ge v _ this]

/-- `SetXor` state byte by state byte (41_sponge R142). -/
theorem stateByte_setXor (c : Width) (S : Vector Lane 25) (i j : Nat) (v : Byte) (hj : j < 25 * laneBytes c) :
    stateByte c (setXor c S i v) j = if j = i then stateByte c S j ^^^ v else stateByte c S j := by
  have hl := lane_of_state_byte_lt hj
  have hp := laneBytes_pos c
  have hb : j % laneBytes c < 8 := lt_of_lt_of_le (Nat.mod_lt _ hp) (by cases c <;> decide)
  unfold stateByte
  rw [toList_getD_eq_getElem _ _ _ hl, toList_getD_eq_getElem _ _ _ hl, getElem_setXor _ _ _ _ _ hl]
  have hdiv : ∀ n, n = laneBytes c * (n / laneBytes c) + n % laneBytes c := fun n => (Nat.div_add_mod n _).symm
  split
  · rename_i h
    rw [BitVec.extractLsb'_xor, extract_shifted_byte _ _ _ hb]
    by_cases hij : j = i
    · simp [hij]
    · have : i % laneBytes c ≠ j % laneBytes c := fun hm => hij (by rw [hdiv i, hdiv j, h, hm])
      simp [this, hij]
  · rename_i h
    have : j ≠ i := fun e => h (by rw [e])
    simp [this]

/-- The first `n` steps of `XorBlock` (41_sponge R144). -/
def xorFirst (c : Width) (S : Vector Lane 25) (blk : List Byte) (n : Nat) : Vector Lane 25 :=
  (List.range n).foldl (fun S i => setXor c S i (blk.getD i 0)) S

theorem xorFirst_zero (c : Width) (S : Vector Lane 25) (blk : List Byte) : xorFirst c S blk 0 = S := rfl

theorem xorFirst_succ (c : Width) (S : Vector Lane 25) (blk : List Byte) (n : Nat) :
    xorFirst c S blk (n + 1) = setXor c (xorFirst c S blk n) n (blk.getD n 0) := by
  simp [xorFirst, List.range_succ]

theorem xorBlock_eq_xorFirst (c : Width) (S : Vector Lane 25) (blk : List Byte) :
    xorBlock c S blk = xorFirst c S blk (rateBytes c) := rfl

theorem xorFirst_congr {c : Width} {S : Vector Lane 25} {b d : List Byte} {n : Nat}
    (h : ∀ i, i < n → b.getD i 0 = d.getD i 0) : xorFirst c S b n = xorFirst c S d n := by
  induction n with
  | zero => rfl
  | succ n ih =>
    rw [xorFirst_succ, xorFirst_succ, ih fun i hi => h i (by omega), h n (by omega)]

/-- Blocks that agree below the rate are XORed alike. -/
theorem xorBlock_congr {c : Width} {S : Vector Lane 25} {b d : List Byte}
    (h : ∀ i, i < rateBytes c → b.getD i 0 = d.getD i 0) : xorBlock c S b = xorBlock c S d := xorFirst_congr h

/-- A block that differs from another at one byte is the other and then that byte's difference. -/
theorem xorFirst_change {c : Width} {S : Vector Lane 25} {b d : List Byte} {n p : Nat} (hp : p < n)
    (h : ∀ i, i < n → i ≠ p → d.getD i 0 = b.getD i 0) :
    xorFirst c S d n = setXor c (xorFirst c S b n) p (b.getD p 0 ^^^ d.getD p 0) := by
  induction n with
  | zero => omega
  | succ n ih =>
    rw [xorFirst_succ, xorFirst_succ]
    by_cases hn : p = n
    · subst hn
      rw [xorFirst_congr fun i hi => h i (by omega) (by omega), setXor_setXor, ← BitVec.xor_assoc, BitVec.xor_self,
        BitVec.zero_xor]
    · rw [ih (by omega) fun i hi => h i (by omega), h n (by omega) (by omega), setXor_comm]

theorem xorBlock_change {c : Width} {S : Vector Lane 25} {b d : List Byte} {p : Nat} (hp : p < rateBytes c)
    (h : ∀ i, i < rateBytes c → i ≠ p → d.getD i 0 = b.getD i 0) :
    xorBlock c S d = setXor c (xorBlock c S b) p (b.getD p 0 ^^^ d.getD p 0) := xorFirst_change hp h

/-- A block of zeros changes nothing. -/
theorem xorBlock_zeros {c : Width} {S : Vector Lane 25} {b : List Byte}
    (h : ∀ i, i < rateBytes c → b.getD i 0 = 0) : xorBlock c S b = S := by
  rw [xorBlock_congr (d := []) (by simpa using h), xorBlock_eq_xorFirst]
  generalize rateBytes c = n
  induction n with
  | zero => rfl
  | succ n ih => rw [xorFirst_succ, ih]; exact setXor_zero c S n

/-- The byte at index `i` of a padded block (42_padding R161). -/
theorem padBlock_getD (c : Width) (buf : List Byte) (k i : Nat) (hi : i < rateBytes c) :
    (padBlock c buf k).getD i 0 =
      if i < k then buf.getD i 0
      else if k = rateBytes c - 1 then (if i = k then 0x81 else 0x00)
      else if i = k then 0x01
      else if i = rateBytes c - 1 then 0x80
      else 0x00 := by
  simp [padBlock, List.getD_eq_getElem?_getD, hi]

@[simp] theorem padBlock_length (c : Width) (buf : List Byte) (k : Nat) :
    (padBlock c buf k).length = rateBytes c := by
  simp [padBlock]

end Sys2Proof.Machine
end

