-- ==== Sys2Proof/Laws/Ops.lean ====
section
/-! SUPPORT. The bytes of a word, and the closed forms of absorbing and squeezing any number of bytes. -/

namespace Sys2Proof.Machine

/-! ## Bytes of words -/

theorem wordByte_toNat (v : Word) (j : Nat) : (wordByte v j).toNat = v.toNat / 2 ^ (8 * j) % 2 ^ 8 :=
  toNat_extract_eq v (8 * j) 8

/-- Byte `j` of a packed word is the list's byte `j`, 0 past its end (43_commands R190). -/
theorem wordByte_packWord (bs : List Byte) (j : Nat) (hj : j < 4) : wordByte (packWord bs) j = bs.getD j 0 := by
  induction bs generalizing j with
  | nil => simp [packWord, wordByte]
  | cons b bs ih =>
    cases j with
    | zero =>
      refine BitVec.eq_of_getLsbD_eq fun i hi => ?_
      have h1 : i < 32 := by omega
      simp [packWord, wordByte, hi, h1]
    | succ j =>
      rw [List.getD_cons_succ, ← ih j (by omega)]
      refine BitVec.eq_of_getLsbD_eq fun i hi => ?_
      have h1 : 8 * (j + 1) + i - 8 = 8 * j + i := by omega
      have h2 : ¬8 * (j + 1) + i < 8 := by omega
      have h3 : 8 * (j + 1) + i < 32 := by omega
      simp [packWord, wordByte, hi, h1, h2, h3, BitVec.getLsbD_of_ge b (8 * (j + 1) + i) (by omega)]
      exact (BitVec.getLsbD_eq_getElem _).symm

@[simp] theorem dinBytes_length (nb : Nat) (v : Word) : (dinBytes nb v).length = nb := by simp [dinBytes]

theorem dinBytes_getD (nb : Nat) (v : Word) (j : Nat) (hj : j < nb) : (dinBytes nb v).getD j 0 = wordByte v j := by
  simp [dinBytes, List.getD_eq_getElem?_getD, hj]

/-- The bytes written to DIN are the bytes ABSORB takes (30_encoding R92; 43_commands R174). -/
theorem dinBytes_packWord (bs : List Byte) (h : bs.length ≤ 4) : dinBytes bs.length (packWord bs) = bs := by
  refine List.ext_getElem (by simp) fun j h1 h2 => ?_
  have hj : j < 4 := by omega
  have := wordByte_packWord bs j hj
  rw [List.getD_eq_getElem _ _ h2] at this
  simp [dinBytes, this]

/-! ## Absorbing -/

theorem absorbBytes_nil (k : Engine) : absorbBytes [] k = k := rfl

theorem absorbBytes_cons (v : Byte) (vs : List Byte) (k : Engine) :
    absorbBytes (v :: vs) k = absorbBytes vs (absorbByte v k) := rfl

/-- Absorbing a sequence is absorbing its parts in order (41_sponge R147). -/
theorem absorbBytes_append (us vs : List Byte) (k : Engine) :
    absorbBytes (us ++ vs) k = absorbBytes vs (absorbBytes us k) := List.foldl_append

/-- A byte that does not fill the block (43_commands R175). -/
theorem absorbByte_of_lt {k : Engine} (v : Byte) (h : k.bufcnt.toNat + 1 < rateBytes k.cfgW) :
    absorbByte v k = { k with
      buf := k.buf.setIfInBounds k.bufcnt.toNat v
      bufcnt := BitVec.ofNat 8 (k.bufcnt.toNat + 1) } := by
  have hR := rateBytes_le k.cfgW
  have e : (k.bufcnt + 1).toNat = k.bufcnt.toNat + 1 := by rw [BitVec.toNat_add]; simp; omega
  have e' : k.bufcnt + 1 = BitVec.ofNat 8 (k.bufcnt.toNat + 1) := by
    rw [← BitVec.toNat_inj, e]; simp; omega
  simp only [absorbByte]
  rw [if_neg (by rw [e]; omega), e']

/-- Clearing the block forgets what stood in it. -/
theorem clearBlock_set (c : Width) (buf : Vector Byte 168) (i : Nat) (v : Byte) (h : i < rateBytes c) :
    clearBlock c (buf.setIfInBounds i v) = clearBlock c buf := by
  refine Vector.ext fun j hj => ?_
  simp only [clearBlock, Vector.getElem_ofFn]
  split
  · rfl
  · rw [Vector.getElem_setIfInBounds_ne]; omega

/-- The byte that fills the block (43_commands R175). -/
theorem absorbByte_of_full {k : Engine} (v : Byte) (h : k.bufcnt.toNat + 1 = rateBytes k.cfgW) :
    absorbByte v k = { k with
      lanes := absorbBlock k.cfgW k.lanes (k.buf.toList.take k.bufcnt.toNat ++ [v])
      buf := clearBlock k.cfgW k.buf
      bufcnt := 0 } := by
  have hR := rateBytes_le k.cfgW
  have e : (k.bufcnt + 1).toNat = k.bufcnt.toNat + 1 := by rw [BitVec.toNat_add]; simp; omega
  simp only [absorbByte]
  rw [if_pos (by rw [e]; omega), clearBlock_set _ _ _ _ (by omega)]
  congr 2
  rw [← h]
  refine List.ext_getElem ?_ fun i h1 h2 => ?_
  · simp; omega
  · simp only [List.length_take, Vector.length_toList] at h1
    rw [List.getElem_take, Vector.getElem_toList, Vector.getElem_setIfInBounds, List.getElem_append]
    have : i < k.bufcnt.toNat ∨ i = k.bufcnt.toNat := by omega
    rcases this with hi | hi
    · simp [hi, show k.bufcnt.toNat ≠ i by omega]; omega
    · subst hi; simp

/-- Bytes that stay within the block: they stand behind the buffered ones (43_commands R174, R175). -/
theorem absorbBytes_of_lt (vs : List Byte) {k : Engine} (h : k.bufcnt.toNat + vs.length < rateBytes k.cfgW) :
    absorbBytes vs k = { k with
      buf := Vector.ofFn fun i : Fin 168 =>
        if k.bufcnt.toNat ≤ i.val ∧ i.val < k.bufcnt.toNat + vs.length then vs.getD (i.val - k.bufcnt.toNat) 0
        else k.buf[i.val]
      bufcnt := BitVec.ofNat 8 (k.bufcnt.toNat + vs.length) } := by
  have hR := rateBytes_le k.cfgW
  induction vs generalizing k with
  | nil =>
    have hb : Vector.ofFn (fun i : Fin 168 =>
        if k.bufcnt.toNat ≤ i.val ∧ i.val < k.bufcnt.toNat + ([] : List Byte).length then
          ([] : List Byte).getD (i.val - k.bufcnt.toNat) 0 else k.buf[i.val]) = k.buf := by
      refine Vector.ext fun i hi => ?_
      rw [Vector.getElem_ofFn, if_neg]
      simp
    rw [hb]
    simp [absorbBytes]
  | cons v vs ih =>
    simp only [List.length_cons] at h
    have e := absorbByte_of_lt v (k := k) (by omega)
    have ec : (BitVec.ofNat 8 (k.bufcnt.toNat + 1)).toNat = k.bufcnt.toNat + 1 := by simp; omega
    rw [absorbBytes_cons, e, ih (by dsimp only; rw [ec]; omega) (by dsimp only; omega)]
    simp only [ec]
    refine congrArg₂ (fun (b : Vector Byte 168) (n : BitVec 8) => { k with buf := b, bufcnt := n }) ?_ ?_
    · refine Vector.ext fun i hi => ?_
      simp only [Vector.getElem_ofFn, Vector.getElem_setIfInBounds, List.length_cons]
      by_cases h1 : i = k.bufcnt.toNat
      · subst h1; simp
      · by_cases h2 : k.bufcnt.toNat + 1 ≤ i ∧ i < k.bufcnt.toNat + 1 + vs.length
        · rw [if_pos h2, if_pos (by omega)]
          rw [show i - k.bufcnt.toNat = (i - (k.bufcnt.toNat + 1)) + 1 by omega, List.getD_cons_succ]
        · rw [if_neg h2, if_neg (by omega), if_neg (by omega)]
    · simp only [List.length_cons]; congr 1; omega

/-- Bytes that fill the block exactly: one block is absorbed and the buffer cleared (43_commands R175). -/
theorem absorbBytes_of_full (vs : List Byte) {k : Engine} (h : k.bufcnt.toNat + vs.length = rateBytes k.cfgW)
    (hc : k.bufcnt.toNat < rateBytes k.cfgW) :
    absorbBytes vs k = { k with
      lanes := absorbBlock k.cfgW k.lanes (k.buf.toList.take k.bufcnt.toNat ++ vs)
      buf := clearBlock k.cfgW k.buf
      bufcnt := 0 } := by
  have hR := rateBytes_le k.cfgW
  induction vs generalizing k with
  | nil => simp at h; omega
  | cons v vs ih =>
    simp only [List.length_cons] at h
    rw [absorbBytes_cons]
    by_cases hv : vs = []
    · subst hv; rw [absorbByte_of_full v (by simpa using h)]; rfl
    · have hl : 0 < vs.length := List.length_pos_iff.2 hv
      have ec : (BitVec.ofNat 8 (k.bufcnt.toNat + 1)).toNat = k.bufcnt.toNat + 1 := by simp; omega
      rw [absorbByte_of_lt v (by omega), ih (by dsimp only; rw [ec]; omega) (by dsimp only; rw [ec]; omega)
        (by dsimp only; omega)]
      simp only [ec, clearBlock_set _ _ _ _ hc]
      congr 2
      refine List.ext_getElem (by simp only [List.length_append, List.length_take, Vector.length_toList, List.length_cons]; omega)
        fun i h1 h2 => ?_
      simp only [List.getElem_append, List.length_take, Vector.length_toList, List.getElem_take, Vector.getElem_toList,
        Vector.getElem_setIfInBounds]
      by_cases hi : i = k.bufcnt.toNat
      · subst hi
        simp [show k.bufcnt.toNat < 168 by omega, show min k.bufcnt.toNat 168 = k.bufcnt.toNat by omega]
      · by_cases hi' : i < k.bufcnt.toNat
        · simp [show i < k.bufcnt.toNat + 1 by omega, show i < 168 by omega, hi', Ne.symm hi]
        · have a1 : ¬i < min (k.bufcnt.toNat + 1) 168 := by omega
          have a2 : ¬i < min k.bufcnt.toNat 168 := by omega
          simp only [a1, a2, dite_false]
          simp only [show min (k.bufcnt.toNat + 1) 168 = k.bufcnt.toNat + 1 by omega,
            show min k.bufcnt.toNat 168 = k.bufcnt.toNat by omega]
          rw [List.getElem_cons, dif_neg (by omega)]
          congr 1

/-! ## Squeezing -/

theorem squeezeBytes_succ (n : Nat) (k : Engine) :
    squeezeBytes (n + 1) k =
      ((squeezeByte k).1 :: (squeezeBytes n (squeezeByte k).2).1, (squeezeBytes n (squeezeByte k).2).2) := rfl

/-- Squeezing `m + n` bytes is squeezing `m` and then `n` (43_commands R194). -/
theorem squeezeBytes_add (m n : Nat) (k : Engine) :
    squeezeBytes (m + n) k =
      ((squeezeBytes m k).1 ++ (squeezeBytes n (squeezeBytes m k).2).1, (squeezeBytes n (squeezeBytes m k).2).2) := by
  induction m generalizing k with
  | zero => simp [squeezeBytes]
  | succ m ih => rw [Nat.add_right_comm, squeezeBytes_succ, ih, squeezeBytes_succ]; rfl

@[simp] theorem squeezeBytes_length (n : Nat) (k : Engine) : (squeezeBytes n k).1.length = n := by
  induction n generalizing k with
  | zero => rfl
  | succ n ih => rw [squeezeBytes_succ]; simp [ih]

theorem refillBlock_of_lt {k : Engine} (h : k.cur.toNat < rateBytes k.cfgW) : refillBlock k = k := by
  unfold refillBlock; rw [if_neg (by omega)]

theorem refillBlock_of_full {k : Engine} (h : k.cur.toNat = rateBytes k.cfgW) :
    refillBlock k = { k with lanes := permute k.cfgW k.lanes, cur := 0 } := by
  unfold refillBlock; rw [if_pos h]

/-- A byte of the current block (43_commands R191). -/
theorem squeezeByte_of_lt {k : Engine} (h : k.cur.toNat < rateBytes k.cfgW) :
    squeezeByte k = (stateByte k.cfgW k.lanes k.cur.toNat, { k with cur := BitVec.ofNat 8 (k.cur.toNat + 1) }) := by
  have hR := rateBytes_le k.cfgW
  have e : k.cur + 1 = BitVec.ofNat 8 (k.cur.toNat + 1) := by
    rw [← BitVec.toNat_inj, BitVec.toNat_add]; simp
  simp only [squeezeByte, refillBlock_of_lt h, e]

/-- Bytes within the current block (43_commands R190, R191). -/
theorem squeezeBytes_of_le (n : Nat) {k : Engine} (h : k.cur.toNat + n ≤ rateBytes k.cfgW) :
    squeezeBytes n k =
      ((List.range n).map fun j => stateByte k.cfgW k.lanes (k.cur.toNat + j),
        { k with cur := BitVec.ofNat 8 (k.cur.toNat + n) }) := by
  have hR := rateBytes_le k.cfgW
  induction n generalizing k with
  | zero => simp [squeezeBytes]
  | succ n ih =>
    have ec : (BitVec.ofNat 8 (k.cur.toNat + 1)).toNat = k.cur.toNat + 1 := by simp; omega
    rw [squeezeBytes_succ, squeezeByte_of_lt (by omega), ih (by dsimp only; rw [ec]; omega) (by dsimp only; omega)]
    simp only [ec, List.range_succ_eq_map, List.map_cons, List.map_map]
    refine Prod.ext ?_ ?_
    · simp only [Nat.add_zero, List.cons.injEq, true_and]
      refine List.map_congr_left fun j _ => ?_
      simp only [Function.comp_apply]; congr 1; omega
    · simp only; congr 2; omega

/-- At the end of a block the bytes are those of the permuted state (43_commands R191). -/
theorem squeezeBytes_refill (n : Nat) {k : Engine} (hn : n ≠ 0) (h : k.cur.toNat = rateBytes k.cfgW) :
    squeezeBytes n k = squeezeBytes n { k with lanes := permute k.cfgW k.lanes, cur := 0 } := by
  obtain ⟨m, rfl⟩ := Nat.exists_eq_succ_of_ne_zero hn
  have hp := rateBytes_pos k.cfgW
  have e : squeezeByte k = squeezeByte { k with lanes := permute k.cfgW k.lanes, cur := 0 } := by
    unfold squeezeByte
    rw [refillBlock_of_full h, refillBlock_of_lt (by simpa using hp)]
  rw [Nat.succ_eq_add_one, squeezeBytes_succ, squeezeBytes_succ, e]

theorem outputByte_of_lt {c : Width} (S : Vector Lane 25) {n : Nat} (h : n < rateBytes c) :
    outputByte c S n = stateByte c S n := by
  simp [outputByte, Nat.div_eq_of_lt h, Nat.mod_eq_of_lt h]

/-- The stream past a block is the stream of the permuted state. -/
theorem outputByte_add_rate (c : Width) (S : Vector Lane 25) (n : Nat) :
    outputByte c S (rateBytes c + n) = outputByte c (permute c S) n := by
  have hp := rateBytes_pos c
  simp [outputByte, Nat.add_div_left n hp]

/-- What a number of output bytes leaves: the bytes of the stream, and an engine whose stream goes on (43_commands R191). -/
theorem squeezeBytes_stream (n : Nat) {k : Engine} (h : k.cur.toNat ≤ rateBytes k.cfgW) :
    (squeezeBytes n k).1 = (List.range n).map (fun j => outputByte k.cfgW k.lanes (k.cur.toNat + j)) ∧
      (squeezeBytes n k).2.cur.toNat ≤ rateBytes k.cfgW ∧
      ∀ j, outputByte k.cfgW (squeezeBytes n k).2.lanes ((squeezeBytes n k).2.cur.toNat + j) =
        outputByte k.cfgW k.lanes (k.cur.toNat + n + j) := by
  have one : ∀ k : Engine, k.cur.toNat ≤ rateBytes k.cfgW →
      (squeezeByte k).1 = outputByte k.cfgW k.lanes k.cur.toNat ∧ (squeezeByte k).2.cur.toNat ≤ rateBytes k.cfgW ∧
      ∀ j, outputByte k.cfgW (squeezeByte k).2.lanes ((squeezeByte k).2.cur.toNat + j) =
        outputByte k.cfgW k.lanes (k.cur.toNat + 1 + j) := by
    intro k h
    have hR := rateBytes_le k.cfgW
    have hp := rateBytes_pos k.cfgW
    by_cases hc : k.cur.toNat < rateBytes k.cfgW
    · have ec : (BitVec.ofNat 8 (k.cur.toNat + 1)).toNat = k.cur.toNat + 1 := by simp; omega
      rw [squeezeByte_of_lt hc]
      exact ⟨(outputByte_of_lt _ hc).symm, by dsimp only; rw [ec]; omega, fun j => by dsimp only; rw [ec]⟩
    · have hc' : k.cur.toNat = rateBytes k.cfgW := by omega
      have e : squeezeByte k = squeezeByte { k with lanes := permute k.cfgW k.lanes, cur := 0 } := by
        unfold squeezeByte
        rw [refillBlock_of_full hc', refillBlock_of_lt (by simpa using hp)]
      rw [e, squeezeByte_of_lt (by simpa using hp)]
      refine ⟨?_, by simp; omega, fun j => ?_⟩
      · have := outputByte_add_rate k.cfgW k.lanes 0
        rw [Nat.add_zero, outputByte_of_lt _ hp] at this
        rw [hc', this]; rfl
      · rw [hc', Nat.add_assoc, outputByte_add_rate]; rfl
  induction n generalizing k with
  | zero => exact ⟨rfl, h, fun j => rfl⟩
  | succ n ih =>
    obtain ⟨a, b, c⟩ := one k h
    obtain ⟨d, e, f⟩ := ih (k := (squeezeByte k).2) (by simpa using b)
    rw [squeezeByte_cfgW] at d e f
    rw [squeezeBytes_succ]
    refine ⟨?_, e, fun j => ?_⟩
    · simp only [d, a, List.range_succ_eq_map, List.map_cons, List.map_map, Nat.add_zero, List.cons.injEq, true_and]
      refine List.map_congr_left fun j _ => ?_
      rw [c]; simp only [Function.comp_apply]; congr 1; omega
    · rw [f, Nat.add_assoc, c]; congr 1; omega

/-- SQUEEZE with its counts as numbers (43_commands R190). -/
theorem squeezeEngine_eq {nb : Nat} {k : Engine} (h : k.outcnt.toNat + nb ≤ k.cfgOutlen.toNat) :
    squeezeEngine nb k = { (squeezeBytes nb k).2 with
      dout := packWord (squeezeBytes nb k).1
      outcnt := BitVec.ofNat 16 (k.outcnt.toNat + nb)
      phase := if k.outcnt.toNat + nb = k.cfgOutlen.toNat then .finalized else k.phase } := by
  have hl := k.cfgOutlen.isLt
  have e : k.outcnt + BitVec.ofNat 16 nb = BitVec.ofNat 16 (k.outcnt.toNat + nb) := by
    rw [← BitVec.toNat_inj, BitVec.toNat_add]; simp
  have e' : BitVec.ofNat 16 (k.outcnt.toNat + nb) = k.cfgOutlen ↔ k.outcnt.toNat + nb = k.cfgOutlen.toNat := by
    rw [← BitVec.toNat_inj, BitVec.toNat_ofNat, Nat.mod_eq_of_lt (by omega)]
  simp only [squeezeEngine, deliver, squeezeBytes_outcnt, squeezeBytes_cfgOutlen, squeezeBytes_phase, e, e']

end Sys2Proof.Machine
end

