-- ==== Sys2Proof/Laws/Message.lean ====
section
/-! SUPPORT. Whole messages: complete blocks absorbed, the padded message in blocks, and the host lines that bring it. -/

namespace Sys2Proof.Machine

/-! ## Blocks -/

theorem blocks_succ (c : Width) (n : Nat) (p : List Byte) :
    blocks c (n + 1) p = p.take (rateBytes c) :: blocks c n (p.drop (rateBytes c)) := by
  simp only [blocks, List.range_succ_eq_map, List.map_cons, List.map_map, Nat.zero_mul, List.drop_zero,
    List.cons.injEq, true_and]
  refine List.map_congr_left fun i _ => ?_
  simp only [Function.comp_apply, List.drop_drop]
  congr 2
  rw [Nat.succ_mul, Nat.add_comm]

/-- The complete blocks of a sequence do not depend on what follows them. -/
theorem blocks_append_right (c : Width) (n : Nat) (p q : List Byte) (h : n * rateBytes c ≤ p.length) :
    blocks c n (p ++ q) = blocks c n p := by
  refine List.map_congr_left fun i hi => ?_
  have hi : i < n := List.mem_range.1 hi
  have : (i + 1) * rateBytes c ≤ n * rateBytes c := Nat.mul_le_mul_right _ hi
  rw [Nat.succ_mul] at this
  rw [List.drop_append_of_le_length (by omega), List.take_append_of_le_length (by simp; omega)]

/-- The block after `n` complete blocks. -/
theorem blocks_last (c : Width) (n : Nat) (p : List Byte) :
    blocks c (n + 1) p = blocks c n p ++ [(p.drop (n * rateBytes c)).take (rateBytes c)] := by
  simp [blocks, List.range_succ]

/-- Absorbing from an empty buffer: the complete blocks are absorbed and the rest waits in the buffer (43_commands
R174, R175). -/
theorem absorbBytes_blocks (q : Nat) (m : List Byte) (k : Engine) (hb : k.buf = Vector.replicate 168 0)
    (hc : k.bufcnt = 0) (h1 : q * rateBytes k.cfgW ≤ m.length) (h2 : m.length < (q + 1) * rateBytes k.cfgW) :
    absorbBytes m k = { k with
      lanes := (blocks k.cfgW q m).foldl (absorbBlock k.cfgW) k.lanes
      buf := Vector.ofFn fun i : Fin 168 => (m.drop (q * rateBytes k.cfgW)).getD i.val 0
      bufcnt := BitVec.ofNat 8 (m.length - q * rateBytes k.cfgW) } := by
  have hR := rateBytes_le k.cfgW
  have hp := rateBytes_pos k.cfgW
  have hc0 : k.bufcnt.toNat = 0 := by rw [hc]; rfl
  induction q generalizing m k with
  | zero =>
    rw [absorbBytes_of_lt m (by rw [hc0]; omega)]
    refine congrArg₂ (fun (b : Vector Byte 168) (n : BitVec 8) => { k with buf := b, bufcnt := n }) ?_ ?_
    · refine Vector.ext fun i hi => ?_
      simp only [Vector.getElem_ofFn, hc0, Nat.zero_le, true_and, Nat.zero_add, Nat.sub_zero, Nat.zero_mul, List.drop_zero]
      split
      · rfl
      · rw [List.getD_eq_default _ _ (by omega)]
        simp only [hb, Vector.getElem_replicate]
    · rw [hc0, Nat.zero_mul, Nat.zero_add, Nat.sub_zero]
  | succ q ih =>
    rw [Nat.succ_mul] at h1
    rw [Nat.succ_mul] at h2
    have hl : (m.take (rateBytes k.cfgW)).length = rateBytes k.cfgW := by simp; omega
    have e : absorbBytes m k = absorbBytes (m.drop (rateBytes k.cfgW)) (absorbBytes (m.take (rateBytes k.cfgW)) k) := by
      rw [← absorbBytes_append, List.take_append_drop]
    have hcl : clearBlock k.cfgW k.buf = Vector.replicate 168 0 := by
      refine Vector.ext fun i hi => ?_
      simp only [clearBlock, Vector.getElem_ofFn, hb, Vector.getElem_replicate, ite_self]
    rw [e, absorbBytes_of_full (m.take (rateBytes k.cfgW)) (k := k) (by rw [hc0, hl, Nat.zero_add]) (by omega), hcl, hc0,
      List.take_zero, List.nil_append]
    rw [ih (m.drop (rateBytes k.cfgW)) { k with
        lanes := absorbBlock k.cfgW k.lanes (m.take (rateBytes k.cfgW)), buf := Vector.replicate 168 0, bufcnt := 0 }
      rfl rfl (by simp only [List.length_drop]; omega) (by simp only [List.length_drop]; omega) hR hp rfl]
    simp only [List.length_drop, List.drop_drop, blocks_succ, List.foldl_cons, Nat.succ_mul]
    rw [Nat.add_comm (rateBytes k.cfgW), Nat.sub_sub, Nat.add_comm (rateBytes k.cfgW)]

/-! ## The padded message -/

/-- The padded message is the message and the pad (42_padding R160). -/
theorem padded_eq (c : Width) (m : List Byte) :
    padded c m = m ++ (if m.length % rateBytes c = rateBytes c - 1 then [0x81]
      else 0x01 :: (List.replicate (rateBytes c - 2 - m.length % rateBytes c) 0x00 ++ [0x80])) := by
  unfold padded
  split <;> simp

/-- The padded message is a whole number of blocks, one more than the complete blocks of the message (42_padding
R163). -/
theorem padded_length (c : Width) (m : List Byte) :
    (padded c m).length = (m.length / rateBytes c + 1) * rateBytes c := by
  have hp := rateBytes_ge_four c
  have h := Nat.div_add_mod m.length (rateBytes c)
  have hm := Nat.mod_lt m.length (rateBytes_pos c)
  rw [padded_eq, Nat.succ_mul, Nat.mul_comm]
  split <;> simp <;> omega

/-! ## Host lines -/

theorem runLines_append (h : Nat) (xs ys : List HostLine) (s : State) :
    runLines h (xs ++ ys) s = andThen (runLines h xs s) (runLines h ys) := by
  induction xs generalizing s with
  | nil => rfl
  | cons x xs ih =>
    simp only [List.cons_append, runLines]
    cases serve h (x.access s.kpeBase) s with
    | next t => exact ih t
    | fault f => rfl
    | refused r => rfl

/-- A line that writes a word to CMD runs the command the word decodes to (30_encoding R91). -/
theorem runLines_wrCmd {i : Instr} (hd : decode (encode i) = .ok i) (h : Nat) (ls : List HostLine) (s : State) :
    runLines h (wrCmd i :: ls) s = andThen (exec i s) (runLines h ls) := by
  have e : serve h ((wrCmd i).access s.kpeBase) s = exec i s :=
    (serve_writeOf h .cmd _ s).trans (executeCommand_of_ok hd s)
  simp only [runLines, e]

theorem runLines_wrDin (h : Nat) (v : Word) (ls : List HostLine) (s : State) :
    runLines h (.wr .din v :: ls) s = runLines h ls { s with engine := { s.engine with din := v } } := by
  have e : serve h ((HostLine.wr .din v).access s.kpeBase) s = .next { s with engine := { s.engine with din := v } } :=
    serve_writeOf h .din v s
  simp only [runLines, e, andThen_next]

/-- ABSORB reads `DIN` and nothing of it after (43_commands R174). -/
theorem absorbByte_din_update (v : Byte) (k : Engine) (d : Word) :
    absorbByte v { k with din := d } = { absorbByte v k with din := d } := by
  simp only [absorbByte]; split <;> rfl

theorem absorbBytes_din_update (vs : List Byte) (k : Engine) (d : Word) :
    absorbBytes vs { k with din := d } = { absorbBytes vs k with din := d } := by
  induction vs generalizing k with
  | nil => rfl
  | cons v vs ih => rw [absorbBytes_cons, absorbByte_din_update, ih]; rfl

theorem squeezeByte_din_update (k : Engine) (d : Word) :
    squeezeByte { k with din := d } = ((squeezeByte k).1, { (squeezeByte k).2 with din := d }) := by
  simp only [squeezeByte, refillBlock]; split <;> rfl

/-- SQUEEZE does not read `DIN` (43_commands R190). -/
theorem squeezeBytes_din_update (n : Nat) (k : Engine) (d : Word) :
    squeezeBytes n { k with din := d } = ((squeezeBytes n k).1, { (squeezeBytes n k).2 with din := d }) := by
  induction n generalizing k with
  | zero => rfl
  | succ n ih => rw [squeezeBytes_succ, squeezeByte_din_update, squeezeBytes_succ, ih]

theorem decode_encode_absorb {nb : Nat} (h1 : 1 ≤ nb) (h4 : nb ≤ 4) :
    decode (encode (.absorb nb)) = .ok (.absorb nb) := by
  have : nb = 1 ∨ nb = 2 ∨ nb = 3 ∨ nb = 4 := by omega
  rcases this with rfl | rfl | rfl | rfl <;> decide

theorem decode_encode_squeeze {nb : Nat} (h1 : 1 ≤ nb) (h4 : nb ≤ 4) :
    decode (encode (.squeeze nb)) = .ok (.squeeze nb) := by
  have : nb = 1 ∨ nb = 2 ∨ nb = 3 ∨ nb = 4 := by omega
  rcases this with rfl | rfl | rfl | rfl <;> decide

/-- What a list of (DIN, nb) pairs does in ABSORBING: its bytes are absorbed, and `DIN` holds some word. -/
theorem runLines_chunkLines (h : Nat) (cs : List (Word × Nat)) (s : State) (hp : s.engine.phase = .absorbing)
    (hcs : ∀ p ∈ cs, 1 ≤ p.2 ∧ p.2 ≤ 4) :
    ∃ d, runLines h (chunkLines cs) s =
      .next { s with engine := { absorbBytes (chunkBytes cs) s.engine with din := d } } := by
  induction cs generalizing s with
  | nil => exact ⟨s.engine.din, rfl⟩
  | cons p cs ih =>
    obtain ⟨h1, h4⟩ := hcs p (by simp)
    simp only [chunkLines, chunkBytes, List.flatMap_cons, List.cons_append, List.nil_append]
    rw [runLines_wrDin, runLines_wrCmd (decode_encode_absorb h1 h4), exec_absorb_of_absorbing (by exact hp), andThen_next]
    obtain ⟨d, hd⟩ := ih { s with engine := absorbBytes (dinBytes p.2 p.1) { s.engine with din := p.1 } }
      (by simpa using hp) fun q hq => hcs q (by simp [hq])
    refine ⟨d, hd.trans ?_⟩
    simp only [absorbBytes_append, absorbBytes_din_update]
    rfl

/-- The lines of an `update` are those of its groups of four bytes (30_encoding R92). -/
theorem update_eq_chunkLines (m : List Byte) :
    ∃ cs, update m = chunkLines cs ∧ chunkBytes cs = m ∧ ∀ p ∈ cs, 1 ≤ p.2 ∧ p.2 ≤ 4 := by
  have group : ∀ bs : List Byte, 1 ≤ bs.length → bs.length ≤ 4 →
      updateGroup bs = chunkLines [(packWord bs, bs.length)] ∧ chunkBytes [(packWord bs, bs.length)] = bs ∧
        ∀ p ∈ [(packWord bs, bs.length)], 1 ≤ p.2 ∧ p.2 ≤ 4 := by
    intro bs h1 h4
    refine ⟨rfl, ?_, by simp; omega⟩
    simp [chunkBytes, dinBytes_packWord bs h4]
  induction m using update.induct with
  | case1 => exact ⟨[], rfl, rfl, by simp⟩
  | case2 a => exact ⟨_, group [a] (by simp) (by simp)⟩
  | case3 a b => exact ⟨_, group [a, b] (by simp) (by simp)⟩
  | case4 a b c => exact ⟨_, group [a, b, c] (by simp) (by simp)⟩
  | case5 a b c d rest ih =>
    obtain ⟨cs, e1, e2, e3⟩ := ih
    obtain ⟨g1, g2, g3⟩ := group [a, b, c, d] (by simp) (by simp)
    refine ⟨(packWord [a, b, c, d], 4) :: cs, ?_, ?_, ?_⟩
    · rw [update, e1, g1]; rfl
    · simp only [chunkBytes, List.flatMap_cons, List.flatMap_nil, List.append_nil, List.length_cons, List.length_nil] at g2 e2 ⊢
      rw [g2, e2]; rfl
    · intro p hp
      rcases List.mem_cons.1 hp with rfl | hp
      · simp
      · exact e3 p hp

end Sys2Proof.Machine
end

