-- ==== Sys2Proof/Laws/PerInstr.lean ====
section
/-! SUPPORT. Per command: its word has the row of 30_encoding R86. -/

namespace Sys2Proof.Laws.OpcodeField

/-- A command's word has its opcode in bits [3:0], and every reserved bit of its format 0. -/
def Statement (i : Instr) : Prop :=
  match i with
  | .init _ _ _ => (encode i).toNat % 16 = 1
  | .absorb _ => (encode i).toNat % 16 = 2 ∧ (encode i).toNat / 64 = 0
  | .finalize => (encode i).toNat = 3
  | .squeeze _ => (encode i).toNat % 16 = 4 ∧ (encode i).toNat / 64 = 0

theorem init (w : Width) (cap : BitVec 11) (outlen : BitVec 16) : Statement (.init w cap outlen) := by
  simp only [Statement]
  simp only [encode_init_toNat]
  omega

theorem absorb (nb : Nat) : Statement (.absorb nb) := by
  simp only [Statement]
  simp only [(encode_nb_toNat nb).1]
  omega

theorem finalize : Statement .finalize := rfl

theorem squeeze (nb : Nat) : Statement (.squeeze nb) := by
  simp only [Statement]
  simp only [(encode_nb_toNat nb).2]
  omega

end Sys2Proof.Laws.OpcodeField
end

