-- ==== Sys2Proof/Tests/Slice0.lean ====
section
/-! SUPPORT. Tests: expected values from spec/95_test_vectors.md, from the examples of the rules, or by hand from the
encodings. -/

namespace Sys2Proof.Tests

set_option Elab.async false

open Sys2Proof.Machine

/-- The state a result gives, if it is a next state. -/
def after (o : Host.Outcome State Fault Refusal) : Option State :=
  match o with
  | .next s => some s
  | .fault _ => none
  | .refused _ => none

/-- The engine a result gives, if it is a next state. -/
def engineAfter (o : Host.Outcome State Fault Refusal) : Option Engine := (after o).map State.engine

/-- Why a result has no step, if it is a refusal. -/
def refusal (o : Host.Outcome State Fault Refusal) : Option Refusal :=
  match o with
  | .next _ => none
  | .fault _ => none
  | .refused r => some r

/-- The reset machine with another engine. -/
def withEngine (k : Engine) : State := { State.reset with engine := k }

/-- KPE-200 with output length 4, open and empty. -/
def open200 : Engine := initEngine .kpe200 168 4 Engine.reset

/-- KPE-1600 with output length 32, open and empty. -/
def open1600 : Engine := initEngine .kpe1600 256 32 Engine.reset

/-- KPE-200 of output length `len`, squeezing, with given leading lanes, cursor and count. -/
def squeezing200 (len : BitVec 16) (lanes : Vector Lane 25) (cur : BitVec 8) (outcnt : BitVec 16) : Engine :=
  { initEngine .kpe200 168 len Engine.reset with
    lanes := lanes, phase := .squeezing, cur := cur, outcnt := outcnt }

/-- A grid of lanes from numbers, `S[0]` first. -/
def grid (w : Nat) (ns : List Nat) : Grid w := Vector.ofFn fun i : Fin 25 => BitVec.ofNat w (ns.getD i.val 0)

/-- The lanes of a grid as numbers. -/
def nats {w : Nat} (A : Grid w) : List Nat := A.toList.map BitVec.toNat

/-! ## Well-formedness: each check refuses an ill-formed term (30_encoding R83, R85, R90) -/

theorem test_wf_absorb_zero : (Instr.absorb 0).wf = false := by decide
theorem test_wf_absorb_five : (Instr.absorb 5).wf = false := by decide
theorem test_wf_squeeze_zero : (Instr.squeeze 0).wf = false := by decide
theorem test_wf_squeeze_five : (Instr.squeeze 5).wf = false := by decide

/-! ## Decoding: words written out from the patterns of 30_encoding R82 to R84 -/

/-- Pattern `L…L C…C W 0001`: OUTLEN 4, CAP 168, W 0. -/
theorem test_decode_init_200 :
    decode 0b0000000000000100_00010101000_0_0001 = .ok (.init .kpe200 168 4) := by decide

/-- OUTLEN 32, CAP 256, W 1. -/
theorem test_decode_init_1600 :
    decode 0b0000000000100000_00100000000_1_0001 = .ok (.init .kpe1600 256 32) := by decide

theorem test_decode_absorb : decode 0b00000000000000000000000000_10_0010 = .ok (.absorb 3) := by decide
theorem test_decode_finalize : decode 0b0000000000000000000000000000_0011 = .ok .finalize := by decide
theorem test_decode_squeeze : decode 0b00000000000000000000000000_11_0100 = .ok (.squeeze 4) := by decide

/-- 95 §4: `0x80000002`, bit 31 set. -/
theorem test_decode_reserved_bit : decode 0x80000002 = .error .reservedBits := by decide

/-- 95 §4: `0x00000013`, bit 4 set in format Z. -/
theorem test_decode_reserved_z : decode 0x00000013 = .error .reservedBits := by decide

/-- 95 §4: `0x00000035`, OP 5. -/
theorem test_decode_reserved_op : decode 0x00000035 = .error .reservedOpcode := by decide

/-- 95 §4: `0xFFFFFFF1` is INIT(W=1, CAP=2047, OUTLEN=65535). -/
theorem test_decode_init_all_ones : decodeTableWord 32 0xFFFFFFF1 = some (.init .kpe1600 2047 65535) := by decide

/-! ## The round datapath (95 §2) -/

/-- 95 §2.1, second theta row. -/
theorem test_theta :
    nats (theta (grid 8 [1])) =
      [0x01, 0x01, 0, 0, 0x02, 0, 0x01, 0, 0, 0x02, 0, 0x01, 0, 0, 0x02,
       0, 0x01, 0, 0, 0x02, 0, 0x01, 0, 0, 0x02] := by decide +kernel

/-- 95 §2.1, rho+pi of the second theta row. -/
theorem test_rho_pi :
    nats (pi (rho .kpe200 (theta (grid 8 [1])))) =
      [0x01, 0x10, 0, 0, 0x80, 0, 0x20, 0, 0x20, 0, 0x02, 0, 0, 0x02, 0,
       0x10, 0, 0x04, 0, 0, 0, 0, 0x01, 0, 0x04] := by decide +kernel

/-- 95 §2.1, chi of the rho+pi output. -/
theorem test_chi :
    nats (chi (pi (rho .kpe200 (theta (grid 8 [1]))))) =
      [0x01, 0x10, 0x80, 0x01, 0x90, 0, 0, 0, 0x20, 0x20, 0x02, 0x02, 0, 0, 0,
       0x14, 0, 0x04, 0x10, 0, 0x01, 0, 0x05, 0, 0x04] := by decide +kernel

/-- 95 §2.2, round 0 of `S[i] = i` in KPE-200: after chi, and iota makes lane 0 `03`. -/
theorem test_round_200 :
    nats (round .kpe200 (grid 8 (List.range 25)) 0) =
      [0x03, 0x61, 0x54, 0x93, 0x2c, 0x51, 0x21, 0xa0, 0xd3, 0x01, 0x36, 0x1a, 0x26, 0x3a, 0x38,
       0x75, 0xf2, 0x0c, 0x7f, 0x89, 0xd3, 0x23, 0xc6, 0x29, 0x7c] := by decide +kernel

/-- 95 §2.2, KPE-1600 after rho and pi, lanes 1, 5 and 23. -/
theorem test_rho_pi_1600 :
    let B := pi (rho .kpe1600 (theta (grid 64 (List.range 25))))
    B[1] = 0x0000e00000000000 ∧ B[5] = 0x00000001d0000000 ∧ B[23] = 0x00002a0000000000 := by decide +kernel

/-- 95 §2.2, KPE-1600 lane 0 after round 0. -/
theorem test_round_1600 :
    (round .kpe1600 (grid 64 (List.range 25)) 0)[0] = 0x000018000000001b := by decide +kernel

/-- 95 §2.3, `KeccakF_200(0)`. -/
theorem test_keccak_200_zero :
    nats (keccakF .kpe200 (grid 8 [])) =
      [0x3c, 0x28, 0x26, 0x84, 0x1c, 0xb3, 0x5c, 0x17, 0x1e, 0xaa, 0xe9, 0xb8, 0x11, 0x13, 0x4c,
       0xea, 0xa3, 0x85, 0x2c, 0x69, 0xd2, 0xc5, 0xab, 0xaf, 0xea] := by decide +kernel

/-- 95 §2.3, `KeccakF_1600(0)`, lanes 0 and 24. -/
theorem test_keccak_1600_zero :
    let A := keccakF .kpe1600 (grid 64 [])
    A[0] = 0xf1258f7940e1dde7 ∧ A[24] = 0xeaf1ff7b5ceca249 := by decide +kernel

/-! ## The sponge datapath and padding (95 §3) -/

/-- 95 §3: `Byte(S, 0..7)` of `S[0] = 0x1c98ad82c86af5bc`. -/
theorem test_state_byte :
    (List.range 8).map (stateByte .kpe1600 (Vector.replicate 25 0x1c98ad82c86af5bc)) =
      [0xbc, 0xf5, 0x6a, 0xc8, 0x82, 0xad, 0x98, 0x1c] := by decide +kernel

/-- 95 §3: the padded block of `"abc"` into the zero state of KPE-1600. -/
theorem test_xor_block_1600 :
    let S := xorBlock .kpe1600 (Vector.replicate 25 0) (padBlock .kpe1600 [0x61, 0x62, 0x63] 3)
    S[0] = 0x0000000001636261 ∧ S[20] = 0x8000000000000000 ∧ S[21] = 0 := by decide +kernel

/-- 42_padding R165: KPE-200 with `k = 2` and `k = 3`. -/
theorem test_pad_block :
    padBlock .kpe200 [0x61, 0x62] 2 = [0x61, 0x62, 0x01, 0x80] ∧
      padBlock .kpe200 [0x61, 0x62, 0x63] 3 = [0x61, 0x62, 0x63, 0x81] := by decide

/-! ## The commands (95 §6, §8) -/

/-- R172's example: STATUS and CONFIG after `init w=200, c=168, len=4` from reset, DIN kept (V12). -/
theorem test_init :
    let k := engineAfter (exec (.init .kpe200 168 4) (withEngine { Engine.reset with din := 0x00636261, dout := 7 }))
    k.map statusValue = some 0x00000001 ∧ k.map configValue = some 0x00041500 ∧
      k.map Engine.din = some 0x00636261 ∧ k.map Engine.dout = some 0 := by decide +kernel

/-- V20: a failed INIT changes only ERR, and ERR keeps its first code. -/
theorem test_init_invalid :
    let k := { open200 with err := .illegalCommand }
    engineAfter (exec (.init .kpe200 168 0) (withEngine k)) = some k := by decide +kernel

/-- V4: DIN `0x00636261`, `absorb 3`. -/
theorem test_absorb :
    let k := engineAfter (exec (.absorb 3) (withEngine { open200 with din := 0x00636261 }))
    k.map statusValue = some 0x00000301 ∧ k.map (fun k => k.buf.toList.take 4) = some [0x61, 0x62, 0x63, 0] := by
  decide +kernel

/-- R145's example: three zero bytes complete the block `00 00 00 00`, which turns the zero state into `KeccakF_200(0)`; the
fourth byte starts the next block. -/
theorem test_absorb_across :
    let k := engineAfter (exec (.absorb 4) (withEngine (absorbBytes [0] { open200 with din := 0x62000000 })))
    k.map statusValue = some 0x00000101 ∧ k.map (fun k => k.buf.toList.take 4) = some [0x62, 0, 0, 0] ∧
      k.map (fun k => k.lanes.toList.take 4) = some [0x3c, 0x28, 0x26, 0x84] := by
  decide +kernel

/-- P1: FINALIZE of `"abc"` leaves `S[0..4] = e8 93 b0 9e 06` and STATUS `0x00000002`. -/
theorem test_finalize_200 :
    let k := engineAfter (exec .finalize (withEngine (absorbBytes [0x61, 0x62, 0x63] open200)))
    k.map statusValue = some 0x00000002 ∧
      k.map (fun k => k.lanes.toList.take 5) = some [0xe8, 0x93, 0xb0, 0x9e, 0x06] := by decide +kernel

/-- P2: FINALIZE of the empty message in KPE-1600. -/
theorem test_finalize_1600 :
    (engineAfter (exec .finalize (withEngine open1600))).map (fun k => k.lanes.toList.take 5) =
      some [0x1c98ad82c86af5bc, 0x2c5797f3f074fad0, 0xac1b1cb31e1c8028, 0x19949ef1d603a74c,
        0xbfef552b6cba93d6] := by decide +kernel

/-- V10: the last 4 of 4 bytes; DOUT, STATUS and OUTCNT. -/
theorem test_squeeze_last :
    let k := engineAfter (exec (.squeeze 4) (withEngine (squeezing200 4 (grid 64 [0xe8, 0x93, 0xb0, 0x9e, 0x06]) 0 0)))
    k.map Engine.dout = some 0x9eb093e8 ∧ k.map statusValue = some 0x00040003 ∧ k.map outcntValue = some 4 := by
  decide +kernel

/-- 95 §2.3: at `CUR = 4` a SQUEEZE first permutes `KeccakF_200(0)` into `KeccakF_200(KeccakF_200(0))`, whose first bytes
are `1b ef 68 94`. -/
theorem test_squeeze_refill :
    let S := grid 64
      [0x3c, 0x28, 0x26, 0x84, 0x1c, 0xb3, 0x5c, 0x17, 0x1e, 0xaa, 0xe9, 0xb8, 0x11, 0x13, 0x4c,
       0xea, 0xa3, 0x85, 0x2c, 0x69, 0xd2, 0xc5, 0xab, 0xaf, 0xea]
    let k := engineAfter (exec (.squeeze 3) (withEngine (squeezing200 10 S 4 4)))
    k.map Engine.dout = some 0x0068ef1b ∧ k.map statusValue = some 0x00030002 := by decide +kernel

/-! ## The register block, reset and refusals (95 §6, §7) -/

/-- P3 line 7: the word `0x42` in ABSORBING gives STATUS `0x0000000D`. -/
theorem test_illegal_command :
    (engineAfter (executeCommand 0x42 (withEngine open200))).map statusValue = some 0x0000000D := by decide +kernel

/-- 95 §6: a write of `0x12345678` to DIN, then a read of DIN. -/
theorem test_din :
    (after (runLines 0 [.wr .din 0x12345678, .rd .din] State.reset)).map State.observed =
      some [⟨0, .din, 0x12345678⟩] := by decide +kernel

/-- 95 §6: a 16-bit access and a misaligned access have no step. -/
theorem test_refused :
    refusal (serve 0 ⟨4, .bits16, .read⟩ State.reset) = some .accessWidth ∧
      refusal (serve 0 ⟨6, .bits32, .read⟩ State.reset) = some .accessMisaligned := by decide +kernel

/-- 95 §7: reset in SQUEEZING, then STATUS and every other register reads 0. -/
theorem test_reset_turn :
    let s := { withEngine (squeezing200 10 (grid 64 [1]) 4 4) with schedule := [.reset] }
    (engineAfter (step s)).map (fun k => [memRead .status k, memRead .config k, memRead .dout k, memRead .outcnt k]) =
      some [0, 0, 0, 0] := by decide +kernel

/-- 95 §7: from reset, the word of `finalize` gives STATUS `0x00000004`. -/
theorem test_fetch_word :
    (engineAfter (step (State.reset.withFetchWord 32 3))).map statusValue = some 0x00000004 := by decide +kernel

/-! ## Written commands (30_encoding R90, R93) -/

theorem test_assemble_init :
    assembleText ['i', 'n', 'i', 't', ' ', 'w', '=', '2', '0', '0', ',', ' ', 'c', '=', '1', '6', '8', ',', ' ',
      'l', 'e', 'n', '=', '4'] = some 0x00041501 := by decide +kernel

theorem test_assemble_squeeze :
    assembleText ['S', 'Q', 'U', 'E', 'E', 'Z', 'E', ' ', '0', 'x', '4'] = some 0x00000034 := by decide +kernel

/-- R91: `wr CMD, absorb 3` writes 0x00000022. -/
theorem test_line :
    lineOfText ['w', 'r', ' ', 'C', 'M', 'D', ',', ' ', 'a', 'b', 's', 'o', 'r', 'b', ' ', '3'] =
      some (.wr .cmd 0x00000022, none) := by decide +kernel

/-! ## Witnesses: for each obligation with hypotheses, states and operands that meet them, at the ends of their ranges -/

/-- KPE-200, open, with the given bytes buffered. -/
def buffered200 (bs : List Byte) : State := withEngine (absorbBytes bs { open200 with din := 0x04030201 })

/-- KPE-1600, open, with 167 zero bytes buffered: one short of a block. -/
def buffered1600 : State := withEngine { open1600 with bufcnt := 167 }

/-- KPE-200 of output length 10, squeezing at the given cursor and count. -/
def squeezing (cur : BitVec 8) (outcnt : BitVec 16) : State := withEngine (squeezing200 10 (grid 64 [1, 2, 3, 4, 5]) cur outcnt)

/-- KPE-200, all 4 digest bytes read, and an error recorded. -/
def finalized200 : State :=
  withEngine { squeezing200 4 (grid 64 [1]) 4 4 with phase := .finalized, err := .illegalCommand }

/-- Two hosts with the given queues, at base 32, and a schedule. -/
def twoHosts (q r : List Access) (schedule : List Turn) : State :=
  { buffered200 [0x61] with kpeBase := 32, hosts := [q, r], schedule := schedule }

/-- An INIT word for `init w=200, c=168, len=4`, as the access that writes it. -/
def initAccess : Access := writeOf 32 .cmd 0x00041501

/-- Every command gives a next state. -/
theorem exec_completes (i : Instr) (s : State) : ∃ t, exec i s = .next t := by
  obtain ⟨_, h⟩ := exec_writes_engine i s
  exact ⟨_, h⟩

theorem witness_DecodeOfEncode :
    (Instr.init .kpe1600 2047 65535).wf = true ∧ (Instr.absorb 1).wf = true ∧ (Instr.absorb 4).wf = true ∧
      Instr.finalize.wf = true ∧ (Instr.squeeze 1).wf = true ∧ (Instr.squeeze 4).wf = true := by decide

theorem witness_EncodeOfDecode : decode 0xFFFFFFF1 = .ok (.init .kpe1600 2047 65535) ∧
    decode 0x00000032 = .ok (.absorb 4) ∧ decode 0x00000003 = .ok .finalize ∧ decode 0x00000004 = .ok (.squeeze 1) := by
  decide

theorem witness_OperandsAreUnsignedFields : decode 0x00000001 = .ok (.init .kpe200 0 0) ∧
    decode 0x00000002 = .ok (.absorb 1) ∧ decode 0x00000032 = .ok (.absorb 4) ∧ decode 0x00000004 = .ok (.squeeze 1) ∧
    decode 0x00000034 = .ok (.squeeze 4) := by decide

theorem witness_ReservedOpcodeOnlyRecordsIllegal :
    (0x00000000#32).toNat % 16 = 0 ∧ 5 ≤ (0x00000005#32).toNat % 16 ∧ 5 ≤ (0xFFFFFFFF#32).toNat % 16 := by simp

theorem witness_ReservedBitsOnlyRecordIllegal :
    ((0x00000042#32).toNat % 16 = 2 ∧ (0x00000042#32).toNat / 64 ≠ 0) ∧
    ((0x80000004#32).toNat % 16 = 4 ∧ (0x80000004#32).toNat / 64 ≠ 0) ∧
    ((0x00000013#32).toNat % 16 = 3 ∧ (0x00000013#32).toNat / 16 ≠ 0) ∧
    (0x00000001#32).toNat % 16 = 1 ∧ validConfig .kpe200 0 0 = false := by simp [validConfig]

theorem witness_AssembledCommandsDecode :
    (2047 ≤ 2047 ∧ 65535 ≤ 65535) ∧ ((800 ≠ 200 ∧ 800 ≠ 1600) ∨ 2047 < 0 ∨ 65535 < 0) ∧
      2047 < 2048 ∧ 65535 < 65536 ∧ (1 ≤ 1 ∧ 1 ≤ 4) ∧ (1 ≤ 4 ∧ 4 ≤ 4) ∧ (0 < 1 ∨ 4 < 0) ∧ (5 < 1 ∨ 4 < 5) ∧ 2 ^ 32 ≤ 2 ^ 32 := by decide

theorem witness_StepRunsTheDecodedCommand :
    (twoHosts [] [initAccess] [.host 1, .reset]).schedule = .host 1 :: [.reset] ∧
      takeAccess 1 (twoHosts [] [initAccess] [.host 1, .reset]).hosts = some (writeOf 32 .cmd 0x00041501, [[], []]) ∧
      decode 0x00041501 = .ok (.init .kpe200 168 4) ∧
    takeAccess 0 (twoHosts [writeOf 32 .cmd 0x42] [] [.host 0]).hosts = some (writeOf 32 .cmd 0x42, [[], []]) ∧
      decode 0x42 = .error .reservedBits := by decide +kernel

theorem witness_PlacedWordRunsNext : decodeTableWord 32 0x00041501 = some (.init .kpe200 168 4) ∧
    decodeTableWord 32 0x22 = some (.absorb 3) ∧ decodeTableWord 32 3 = some .finalize ∧
    decodeTableWord 32 0x34 = some (.squeeze 4) := by decide

theorem witness_InitResult :
    ((((Width.kpe200 = .kpe200 ∧ (168 : BitVec 11) = 168) ∨ (Width.kpe200 = .kpe1600 ∧ (168 : BitVec 11) = 256)) ∧
      1 ≤ (1 : BitVec 16).toNat)) ∧
    ¬(((Width.kpe200 = .kpe200 ∧ (168 : BitVec 11) = 168) ∨ (Width.kpe200 = .kpe1600 ∧ (168 : BitVec 11) = 256)) ∧
      1 ≤ (0 : BitVec 16).toNat) ∧
    finalized200.engine.err ≠ .none ∧
      (engineAfter (exec (.init .kpe1600 256 65535) finalized200)).map Engine.err = some .none := by decide +kernel

theorem witness_InitForgetsTheOldHash : validConfig .kpe1600 256 1 = true ∧
    (squeezing 4 4).engine.din = finalized200.engine.din := by decide +kernel

theorem witness_InitFrame : (∃ t, exec (.init .kpe200 168 4) finalized200 = .next t) ∧
    ∃ t, exec (.init .kpe200 0 4) finalized200 = .next t := ⟨exec_completes _ _, exec_completes _ _⟩

theorem witness_AbsorbWithinBlock : (buffered200 []).engine.phase = .absorbing ∧
    (buffered200 []).engine.bufcnt.toNat + 3 < rateBytes (buffered200 []).engine.cfgW ∧
    (withEngine open1600).engine.phase = .absorbing ∧
    (withEngine open1600).engine.bufcnt.toNat + 4 < rateBytes (withEngine open1600).engine.cfgW := by decide +kernel

/-- Filled exactly (KPE-200, 0 and 4), one byte from the end (3 and 4), and one byte from the end of KPE-1600. -/
theorem witness_AbsorbAcrossBlock :
    (∀ s ∈ [buffered200 [], buffered200 [1, 2, 3], buffered1600], s.engine.Inv ∧ s.engine.phase = .absorbing ∧
      rateBytes s.engine.cfgW ≤ s.engine.bufcnt.toNat + 4) ∧
    rateBytes buffered1600.engine.cfgW ≤ buffered1600.engine.bufcnt.toNat + 1 := by decide +kernel

theorem witness_AbsorbFrame : (∃ t, exec (.absorb 1) buffered1600 = .next t) ∧ buffered1600.engine.phase = .absorbing ∧
    buffered1600.engine.bufcnt.toNat < rateBytes buffered1600.engine.cfgW ∧
    ∃ t, exec (.absorb 4) finalized200 = .next t :=
  ⟨exec_completes _ _, rfl, by decide +kernel, exec_completes _ _⟩

theorem witness_FinalizeResult : (∀ s ∈ [buffered200 [], buffered200 [1, 2, 3], buffered1600], s.engine.phase = .absorbing ∧
      s.engine.bufcnt.toNat < rateBytes s.engine.cfgW) ∧ finalized200.engine.phase ≠ .absorbing ∧
    (0x00000013#32).toNat % 16 = 3 ∧ (0x00000013#32).toNat / 16 ≠ 0 := by decide +kernel

theorem witness_FinalizeFrame : (∃ t, exec .finalize (buffered200 [1]) = .next t) ∧
    (buffered200 [1]).engine.phase = .absorbing ∧ ∃ t, exec .finalize finalized200 = .next t :=
  ⟨exec_completes _ _, by decide +kernel, exec_completes _ _⟩

/-- The whole block of KPE-200 in one SQUEEZE, and the last byte of a block that is the last of the digest. -/
theorem witness_SqueezeWithinBlock : ∀ p ∈ [(4, squeezing 0 0), (1, squeezing 3 9)], p.2.engine.phase = .squeezing ∧
    1 ≤ p.1 ∧ p.1 ≤ 4 ∧ p.2.engine.outcnt.toNat + p.1 ≤ p.2.engine.cfgOutlen.toNat ∧
    p.2.engine.cur.toNat + p.1 ≤ rateBytes p.2.engine.cfgW := by decide +kernel

/-- From the end of a block, and across it in the middle of a SQUEEZE. -/
theorem witness_SqueezeAcrossBlock : ∀ p ∈ [(1, squeezing 4 9), (4, squeezing 4 4), (2, squeezing 3 8)],
    p.2.engine.phase = .squeezing ∧ 1 ≤ p.1 ∧ p.1 ≤ 4 ∧
    p.2.engine.outcnt.toNat + p.1 ≤ p.2.engine.cfgOutlen.toNat ∧ p.2.engine.cur.toNat ≤ rateBytes p.2.engine.cfgW ∧
    rateBytes p.2.engine.cfgW < p.2.engine.cur.toNat + p.1 := by decide +kernel

theorem witness_SqueezeFrame : (∃ t, exec (.squeeze 2) (squeezing 4 8) = .next t) ∧
    (squeezing 4 8).engine.phase = .squeezing ∧
    (squeezing 4 8).engine.outcnt.toNat + 2 ≤ (squeezing 4 8).engine.cfgOutlen.toNat ∧
    (∃ t, exec (.squeeze 3) (squeezing 4 8) = .next t) ∧
    (squeezing 4 8).engine.cfgOutlen.toNat < (squeezing 4 8).engine.outcnt.toNat + 3 :=
  ⟨exec_completes _ _, rfl, by decide, exec_completes _ _, by decide⟩

theorem witness_OutputIndependentOfSplit : ∀ sizes ∈ [[4, 4, 2], [1, 3, 3, 3]],
    (squeezing 4 0).engine.cur.toNat ≤ rateBytes (squeezing 4 0).engine.cfgW ∧ (squeezing 4 0).engine.phase = .squeezing ∧
    (∀ k ∈ sizes, 1 ≤ k ∧ k ≤ 4) ∧
    (squeezing 4 0).engine.outcnt.toNat + sizes.sum ≤ (squeezing 4 0).engine.cfgOutlen.toNat := by decide +kernel

theorem witness_FixedOutputLength : ∀ sizes ∈ [[4, 4, 2], [1, 3, 3, 3]], (squeezing 0 0).engine.phase = .squeezing ∧
    (squeezing 0 0).engine.outcnt = 0 ∧ (∀ k ∈ sizes, 1 ≤ k ∧ k ≤ 4) ∧
    sizes.sum = (squeezing 0 0).engine.cfgOutlen.toNat ∧ 1 ≤ (squeezing 0 0).engine.cfgOutlen.toNat := by decide +kernel

theorem witness_PhaseTable : validConfig .kpe200 168 1 = true ∧ validConfig .kpe200 256 4 = false ∧
    (buffered200 []).engine.phase = .absorbing ∧ State.reset.engine.phase ≠ .absorbing ∧
    (squeezing 0 9).engine.phase = .squeezing ∧
    (squeezing 0 9).engine.outcnt.toNat + 1 ≤ (squeezing 0 9).engine.cfgOutlen.toNat ∧
    (buffered200 []).engine.phase ≠ .squeezing ∧ decode 0 = .error .reservedOpcode := by decide +kernel

theorem witness_FailedCommandChangesOnlyErr : ¬Accepted (.init .kpe1600 168 32) (squeezing 0 0).engine ∧
    ¬Accepted (.absorb 1) finalized200.engine ∧ ¬Accepted .finalize State.reset.engine ∧
    ¬Accepted (.squeeze 2) (squeezing 0 9).engine ∧ decode 0x42 = .error .reservedBits := by decide +kernel

theorem witness_ErrClearedOnlyByResetOrInit :
    let byReset := { finalized200 with schedule := [.reset] }
    let byInit := { finalized200 with kpeBase := 32, hosts := [[initAccess]], schedule := [.host 0] }
    finalized200.engine.err ≠ .none ∧ (engineAfter (step byReset)).map Engine.err = some .none ∧
      (engineAfter (step byInit)).map Engine.err = some .none ∧ validConfig .kpe200 168 4 = true := by decide +kernel

/-- An ABSORB, a DIN write, an illegal word, an INIT of an unsupported configuration (`0x00000001`) and a read. -/
theorem witness_ErrNoneMeansAllAccepted :
    (∀ v w cap len, HostLine.wr .cmd v ∈ [.wr .cmd 2, .wr .din 5, .wr .cmd 0x42, .wr .cmd 1, .rd .status] →
      decode v = .ok (.init w cap len) → validConfig w cap len = false) ∧
    (buffered200 []).engine.err = .none ∧ finalized200.engine.err ≠ .none ∧ validConfig .kpe200 168 4 = true := by
  refine ⟨fun v w cap len hv hd => ?_, by decide +kernel, by decide +kernel, by decide⟩
  have hv : v = 2 ∨ v = 0x42 ∨ v = 1 := by simpa using hv
  rcases hv with rfl | rfl | rfl
  · exact absurd (hd.symm.trans (show decode 2 = .ok (.absorb 1) by decide)) (by simp)
  · exact absurd (hd.symm.trans (show decode 0x42 = .error .reservedBits by decide)) (by simp)
  · cases hd.symm.trans (show decode 1 = .ok (.init .kpe200 0 0) by decide)
    decide

theorem witness_FinalizedAcceptsOnlyInit :
    (engineAfter (exec (.squeeze 1) (squeezing 0 9))).map Engine.phase = some .finalized ∧
    (squeezing 0 9).engine.phase = .squeezing ∧
    (squeezing 0 9).engine.outcnt.toNat + 1 = (squeezing 0 9).engine.cfgOutlen.toNat ∧
    finalized200.engine.phase = .finalized ∧
    (engineAfter (exec (.init .kpe200 168 4) finalized200)).map Engine.phase = some .absorbing := by decide +kernel

theorem witness_OnlyResetUnconfigures : finalized200.engine.phase ≠ .unconfigured ∧
    (engineAfter (step { finalized200 with schedule := [.reset] })).map Engine.phase = some .unconfigured := by
  decide +kernel

/-- R103's example. -/
theorem witness_ThetaLanes : ∀ x y, lane (grid 8 [0, 0, 0, 0, 0, 0, 0x80]) x y = if x = 1 ∧ y = 1 then 0x80 else 0 := by
  decide +kernel

theorem witness_RhoLanes : lane (grid 8 [0, 0x81]) 1 0 = 0x81 := by decide +kernel

/-- A grid equals itself under pi: the only way two grids can agree there. -/
theorem witness_PiMovesLanes : pi (grid 8 [1, 2, 3]) = pi (grid 8 [1, 2, 3]) ∧ pi (grid 8 [1, 2, 3]) ≠ grid 8 [1, 2, 3] := by
  decide +kernel

/-- R109's example. -/
theorem witness_ChiLanes : lane (grid 8 [1]) 0 0 = 0x01 ∧ ∀ x : Fin 5, x ≠ 0 → lane (grid 8 [1]) x 0 = 0 := by
  decide +kernel

theorem witness_IotaLanes : lane (grid 8 [2]) 0 0 = 0x02 := by decide +kernel

theorem witness_OffsetsFollowRecurrence : (0, 0, 0) ∈ rhoGenerated 8 ∧ (1, 0, 1) ∈ rhoGenerated 64 := by decide +kernel

theorem witness_RoundConstantsFollowRecurrence : 0 < 18 ∧ 17 < 18 ∧ 23 < 24 := by decide

theorem witness_NarrowTablesAreTruncations : 0 < 18 ∧ 17 < 18 := by decide

theorem witness_NarrowLanesStayNarrow :
    (∀ i : Fin 25, (grid 64 [0x101])[i.val].extractLsb' 0 8 = (grid 64 [0x001])[i.val].extractLsb' 0 8) ∧
    ∀ i : Fin 25, (grid 64 (List.range 25))[i.val].extractLsb' 8 56 = 0 := by decide +kernel

theorem witness_StateBytesAndXorBlock : 24 < 25 * laneBytes .kpe200 ∧ 199 < 25 * laneBytes .kpe1600 ∧
    ([1, 2, 3, 4] : List Byte).length = rateBytes .kpe200 ∧
    (List.replicate 168 (0xFF : Byte)).length = rateBytes .kpe1600 := by decide +kernel

theorem witness_PadBlockBytes : ∀ c, 0 < rateBytes c ∧ rateBytes c - 2 < rateBytes c ∧ rateBytes c - 1 < rateBytes c ∧
    rateBytes c - 1 ≤ (List.replicate 168 (0 : Byte)).length := by
  intro c; cases c <;> decide +kernel

theorem witness_PadIsOneZerosOne : ∀ c k, (k = 0 ∨ k = rateBytes c - 1) →
    k < rateBytes c ∧ 8 * k ≤ 8 * k ∧ 8 * k < 8 * rateBytes c ∧ 8 * k ≤ 8 * rateBytes c - 1 := by
  rintro c k (rfl | rfl) <;> cases c <;> decide

theorem witness_InPlaceAbsorptionRefines : ∀ s ∈ [buffered200 [], buffered200 [1, 2, 3], buffered1600],
    s.engine.Inv ∧ s.engine.phase = .absorbing := by decide +kernel

theorem witness_RegisterBlockLayout : decode 0x00202011 = .ok (.init .kpe1600 256 32) ∧
    validConfig .kpe1600 256 32 = true ∧ (buffered200 [1]).engine.phase = .absorbing ∧
    Accepted (.squeeze 1) (squeezing 3 9).engine := by decide +kernel

theorem witness_DinHoldsWhatWasWritten : (∃ t, exec .finalize (buffered200 [1]) = .next t) ∧
    (buffered200 [1]).engine.phase = .absorbing ∧ ∀ nb, Instr.finalize ≠ .absorb nb :=
  ⟨exec_completes _ _, by decide +kernel, by simp⟩

theorem witness_ReadsHaveNoSideEffects : (∃ t, serve 1 (readOf 0 .status) State.reset = .next t) ∧
    Reg.reserved1C ≠ .cmd ∧ Reg.reserved1C ≠ .din := ⟨⟨_, serve_readOf 1 .status State.reset⟩, by decide, by decide⟩

/-- The last byte of the block, narrow; the last aligned word; and one byte past it. -/
theorem witness_OnlyAlignedWordAccessesStep :
    ∀ p ∈ [(⟨63, .bits8, .read⟩ : Access), ⟨60, .bits32, .read⟩, ⟨61, .bits32, .write 1⟩],
      (twoHosts [p] [] [.host 0]).schedule = .host 0 :: [] ∧
      takeAccess 0 (twoHosts [p] [] [.host 0]).hosts = some (p, [[], []]) ∧ 32 ≤ p.addr ∧ p.addr < 32 + 32 := by
  decide +kernel

theorem witness_RunIsAnInterleaving :
    (twoHosts [initAccess] [readOf 32 .status] [.host 1, .host 0]).schedule = [1, 0].map .host ++ [] ∧
    takeAll [1, 0] (twoHosts [initAccess] [readOf 32 .status] [.host 1, .host 0]).hosts =
      some ([(1, readOf 32 .status), (0, initAccess)], [[], []]) := by decide +kernel

/-- Two states that differ in a capacity lane only. -/
theorem witness_CapacityIsNotOutput :
    (squeezing 0 0).engine.phase = .squeezing ∧ (squeezing 0 0).engine.cur.toNat + 4 ≤ rateBytes .kpe200 ∧
    (squeezing 0 0).engine.outcnt.toNat + 4 ≤ (squeezing 0 0).engine.cfgOutlen.toNat ∧
    grid 64 [1, 2, 3, 4, 77] ≠ (squeezing 0 0).engine.lanes ∧
    ∀ i, i < rateBytes .kpe200 →
      stateByte .kpe200 (grid 64 [1, 2, 3, 4, 77]) i = stateByte .kpe200 (squeezing 0 0).engine.lanes i := by
  decide +kernel

theorem witness_PlatformParametersStay : ∃ t, step (twoHosts [readOf 32 .dout] [] [.host 0]) = .next t := ⟨_, rfl⟩

theorem witness_ResetSetsEverything : { finalized200 with schedule := [.reset, .host 0] }.schedule = .reset :: [.host 0] :=
  rfl

/-- A command of host 0, and a read or a write that the bus holds for host 1. -/
theorem witness_ResetDuringCommand :
    takeAccess 0 (twoHosts [initAccess] [readOf 32 .status] []).hosts =
      some (writeOf 32 .cmd 0x00041501, [[], [readOf 32 .status]]) ∧
    takeAccess 1 [[], [readOf 32 .status]] = some (readOf 32 .status, [[], []]) ∧
    takeAccess 1 [[], [writeOf 32 .din 7]] = some (writeOf 32 .din 7, [[], []]) := by decide +kernel

theorem witness_StepKeepsInvariant : (twoHosts [initAccess] [] [.host 0]).engine.Inv ∧
    (engineAfter (step (twoHosts [initAccess] [] [.host 0]))).isSome = true := by decide +kernel

theorem witness_DigestProgramComputesSponge : 1 ≤ (1 : BitVec 16).toNat ∧ 1 ≤ (65535 : BitVec 16).toNat := by decide

/-- Three bytes in one ABSORB, and in two. -/
theorem witness_ChunkingDoesNotMatter :
    let cs := [(0x00636261#32, 3)]
    let ds := [(0xFFFFFF61#32, 1), (0xFFFF6362#32, 2)]
    (buffered200 []).engine.phase = .absorbing ∧ (∀ p ∈ cs, 1 ≤ p.2 ∧ p.2 ≤ 4) ∧ (∀ p ∈ ds, 1 ≤ p.2 ∧ p.2 ≤ 4) ∧
      chunkBytes cs = chunkBytes ds ∧ cs ≠ ds := by decide +kernel

theorem witness_HashingIsDeterministic :
    validConfig .kpe1600 256 32 = true ∧ (∀ p ∈ [(0x61#32, 1), (0x62#32, 1)], 1 ≤ p.2 ∧ p.2 ≤ 4) ∧
      chunkBytes [(0x61#32, 1), (0x62#32, 1)] = chunkBytes [(0x6261#32, 2)] := by decide

theorem witness_SharedUpdatesAreOneUpdate : (buffered200 [1]).engine.phase = .absorbing := by decide +kernel

end Sys2Proof.Tests
end

section
/-! SUPPORT. A command as a function of the engine: what an accepted one writes, what a refused one records. -/

namespace Sys2Proof.Machine

/-- The engine after a command that is accepted (43_commands R172, R174, R180, R190). -/
def acceptedEngine : Instr → Engine → Engine
  | .init w cap len, k => initEngine w cap len k
  | .absorb nb, k => absorbBytes (dinBytes nb k.din) k
  | .finalize, k => finalizeEngine k
  | .squeeze nb, k => squeezeEngine nb k

theorem exec_of_accepted {i : Instr} {s : State} (h : Accepted i s.engine) :
    exec i s = .next { s with engine := acceptedEngine i s.engine } := by
  cases i with
  | init w cap len => exact exec_init_of_valid h s
  | absorb nb => exact exec_absorb_of_absorbing h nb
  | finalize => exact exec_finalize_of_absorbing h
  | squeeze nb => exact exec_squeeze_of_squeezing h.1 h.2

theorem exec_of_not_accepted {i : Instr} {s : State} (h : ¬Accepted i s.engine) :
    exec i s = .next (noteError (errorOf i) s) := by
  rcases exec_cases i s with ⟨ha, -⟩ | ⟨-, he⟩
  · exact absurd ha h
  · exact he.trans (raise_eq_noteError _ s)

/-! ## `DIN` and the commands (20_memory R56) -/

/-- No accepted command writes `DIN`. -/
@[simp] theorem acceptedEngine_din (i : Instr) (k : Engine) : (acceptedEngine i k).din = k.din := by
  cases i with
  | init w cap len => rfl
  | absorb nb => exact absorbBytes_din _ k
  | finalize => rfl
  | squeeze nb => exact squeezeBytes_din nb k

/-- Whether a command is accepted does not depend on `DIN`. -/
theorem accepted_din_update (i : Instr) (k : Engine) (d : Word) : Accepted i { k with din := d } ↔ Accepted i k := by
  cases i <;> exact Iff.rfl

/-- An accepted command other than ABSORB neither reads nor writes `DIN`. -/
theorem acceptedEngine_din_update {i : Instr} (h : ∀ nb, i ≠ .absorb nb) (k : Engine) (d : Word) :
    acceptedEngine i { k with din := d } = { acceptedEngine i k with din := d } := by
  cases i with
  | init w cap len => rfl
  | absorb nb => exact absurd rfl (h nb)
  | finalize => rfl
  | squeeze nb => simp only [acceptedEngine, squeezeEngine, squeezeBytes_din_update, deliver]

/-- No command changes `DIN`. -/
theorem exec_keeps_din {i : Instr} {s t : State} (h : exec i s = .next t) : t.engine.din = s.engine.din := by
  by_cases ha : Accepted i s.engine
  · cases (exec_of_accepted ha).symm.trans h
    exact acceptedEngine_din i s.engine
  · cases (exec_of_not_accepted ha).symm.trans h
    rfl

/-- A command other than ABSORB does the same whatever `DIN` holds. -/
theorem exec_din_update {i : Instr} {s t : State} (hi : ∀ nb, i ≠ .absorb nb) (h : exec i s = .next t) (d : Word) :
    exec i { s with engine := { s.engine with din := d } } = .next { t with engine := { t.engine with din := d } } := by
  have hd := accepted_din_update i s.engine d
  by_cases ha : Accepted i s.engine
  · cases (exec_of_accepted ha).symm.trans h
    exact (exec_of_accepted (s := { s with engine := { s.engine with din := d } }) (hd.2 ha)).trans
      (by rw [acceptedEngine_din_update hi])
  · cases (exec_of_not_accepted ha).symm.trans h
    exact exec_of_not_accepted (s := { s with engine := { s.engine with din := d } }) (mt hd.1 ha)

/-- A second FINALIZE only records INVALID_STATE (43_commands R180). -/
theorem exec_finalize_again (s : State) :
    exec .finalize { s with engine := finalizeEngine s.engine } =
      .next (noteError .invalidState { s with engine := finalizeEngine s.engine }) :=
  exec_of_not_accepted (i := .finalize) (s := { s with engine := finalizeEngine s.engine }) nofun

end Sys2Proof.Machine
end

section
/-! SUPPORT. Accesses of the register block: what reads and writes of a named register do, and the fields of the words
that hosts read. -/

namespace Sys2Proof.Machine

/-- A read adds its value to what hosts have read and changes nothing else (20_memory R64). -/
theorem serve_readOf_observed (h : Nat) (r : Reg) (s : State) :
    serve h (readOf s.kpeBase r) s = .next { s with observed := s.observed ++ [⟨h, r, memRead r s.engine⟩] } :=
  serve_readOf h r s

theorem serve_writeOf_cmd (h : Nat) (cmd : Word) (s : State) :
    serve h (writeOf s.kpeBase .cmd cmd) s = executeCommand cmd s :=
  serve_writeOf h .cmd cmd s

theorem serve_writeOf_din (h : Nat) (v : Word) (s : State) :
    serve h (writeOf s.kpeBase .din v) s = .next { s with engine := { s.engine with din := v } } :=
  serve_writeOf h .din v s

theorem serve_writeOf_finalize (h : Nat) (s : State) :
    serve h (writeOf s.kpeBase .cmd 0x00000003) s = exec .finalize s :=
  (serve_writeOf_cmd h 3 s).trans (executeCommand_of_ok (by decide) s)

/-- Writing FINALIZE to CMD twice is not writing it once: the second one leaves its error in `ERR` (20_memory R64). -/
theorem finalize_write_not_idempotent (h : Nat) {s : State} (hp : s.engine.phase = .absorbing)
    (he : s.engine.err = .none) :
    andThen (serve h (writeOf s.kpeBase .cmd 0x00000003) s) (serve h (writeOf s.kpeBase .cmd 0x00000003)) ≠
      serve h (writeOf s.kpeBase .cmd 0x00000003) s := by
  have second := (serve_writeOf_finalize h { s with engine := finalizeEngine s.engine }).trans
    (exec_finalize_again s)
  rw [serve_writeOf_finalize, exec_finalize_of_absorbing hp, andThen_next, second]
  intro e
  have hne := congrArg (fun t : State => t.engine.err) (Host.Outcome.next.inj e)
  simp [noteError, he] at hne

/-- A write to a read-only or reserved offset changes nothing (20_memory R57 to R63). -/
theorem serve_writeOf_ignored {r : Reg} (hc : r ≠ .cmd) (hd : r ≠ .din) (h : Nat) (v : Word) (s : State) :
    serve h (writeOf s.kpeBase r v) s = .next s := by
  rw [serve_writeOf]
  cases r with
  | cmd => exact absurd rfl hc
  | din => exact absurd rfl hd
  | dout => rfl
  | status => rfl
  | config => rfl
  | outcnt => rfl
  | reserved18 => rfl
  | reserved1C => rfl

/-- What hosts have read changes no access: each adds the same values to any list of them (20_memory R64). -/
theorem serve_observed_congr {g : Nat} {a : Access} {s t : State} (h : serve g a s = .next t) (obs : List Observation) :
    ∃ new, t.observed = s.observed ++ new ∧
      serve g a { s with observed := obs } = .next { t with observed := obs ++ new } := by
  rcases serve_cases g a s with ⟨e, -, he⟩ | ⟨r, ht, hk, he⟩ | ⟨r, v, -, ht, hk, he, -⟩ <;> rw [he] at h
  · cases h
  · cases h
    exact ⟨[⟨g, r, memRead r s.engine⟩], rfl, by simp only [serve, ht, hk]; rfl⟩
  · obtain ⟨k, h1, h2⟩ := memWrite_engine_congr r v (s := s) (t := { s with observed := obs }) rfl
    cases h1.symm.trans h
    exact ⟨[], (List.append_nil _).symm, by simpa only [serve, ht, hk, List.append_nil] using h2⟩

/-! ## STATUS, CONFIG and OUTCNT (20_memory R59 to R61) -/

/-- A field of a word as a number. -/
theorem extract_eq_iff {w : Nat} (x : BitVec w) (lo n : Nat) (y : BitVec n) :
    x.extractLsb' lo n = y ↔ x.toNat / 2 ^ lo % 2 ^ n = y.toNat := by
  rw [← BitVec.toNat_inj, toNat_extract_eq]

/-- The fields of STATUS; its reserved bits are 0. -/
theorem status_fields (k : Engine) :
    (memRead .status k).extractLsb' 0 2 = phaseCode k.phase ∧ (memRead .status k).extractLsb' 2 2 = errCode k.err ∧
    (memRead .status k).extractLsb' 4 4 = 0 ∧ (memRead .status k).extractLsb' 8 8 = k.bufcnt ∧
    (memRead .status k).extractLsb' 16 8 = k.cur ∧ (memRead .status k).extractLsb' 24 8 = 0 := by
  have hp := (phaseCode k.phase).isLt
  have he := (errCode k.err).isLt
  have hb := k.bufcnt.isLt
  have hc := k.cur.isLt
  simp only [extract_eq_iff, status_toNat, BitVec.ofNat_eq_ofNat, BitVec.toNat_ofNat]
  omega

theorem widthBit_eq_one_iff (c : Width) : (widthBit c).toNat = 1 ↔ c = .kpe1600 := by
  cases c <;> decide

/-- The fields of CONFIG; its reserved bits are 0. -/
theorem config_fields (k : Engine) :
    (memRead .config k).extractLsb' 0 4 = 0 ∧ ((memRead .config k).getLsbD 4 = true ↔ k.cfgW = .kpe1600) ∧
    (memRead .config k).extractLsb' 5 11 = k.cfgCap ∧ (memRead .config k).extractLsb' 16 16 = k.cfgOutlen := by
  have hw := (widthBit k.cfgW).isLt
  have hc := k.cfgCap.isLt
  have hl := k.cfgOutlen.isLt
  simp only [extract_eq_iff, getLsbD_eq_true_iff, ← widthBit_eq_one_iff, config_toNat, BitVec.ofNat_eq_ofNat,
    BitVec.toNat_ofNat]
  omega

theorem outcnt_toNat (k : Engine) : (memRead .outcnt k).toNat = k.outcnt.toNat := by
  have := k.outcnt.isLt
  simp only [memRead, outcntValue, BitVec.toNat_setWidth]; omega

/-- Clearing the opcode field of a word, as a number. -/
theorem toNat_and_clear_opcode (cmd : Word) : (cmd &&& 0xFFFFFFF0).toNat = cmd.toNat / 16 * 16 := by
  have shifts : cmd &&& BitVec.allOnes 32 <<< 4 = cmd >>> 4 <<< 4 := by
    refine BitVec.eq_of_getLsbD_eq fun i hi => ?_
    simp only [BitVec.getLsbD_and, BitVec.getLsbD_shiftLeft, BitVec.getLsbD_ushiftRight, BitVec.getLsbD_allOnes]
    by_cases h4 : i < 4
    · simp [h4]
    · have e : 4 + (i - 4) = i := by omega
      have hi' : i - 4 < 32 := by omega
      simp [h4, hi, hi', e]
  have hlt := cmd.isLt
  calc (cmd &&& 0xFFFFFFF0).toNat
    _ = (cmd >>> 4 <<< 4).toNat := congrArg BitVec.toNat shifts
    _ = cmd.toNat / 16 * 16 := by
      rw [BitVec.toNat_shiftLeft, BitVec.toNat_ushiftRight, Nat.shiftRight_eq_div_pow, Nat.shiftLeft_eq]
      omega

theorem widthBit_widthOfBit (b : Bool) : (widthBit (widthOfBit b)).toNat = b.toNat := by
  cases b <;> rfl

/-- After a valid INIT, CONFIG reads the INIT word with the opcode field 0 (20_memory R60). -/
theorem config_after_init {cmd : Word} {w : Width} {cap : BitVec 11} {len : BitVec 16}
    (h : decode cmd = .ok (.init w cap len)) (k : Engine) :
    memRead .config (initEngine w cap len k) = cmd &&& 0xFFFFFFF0 := by
  apply BitVec.eq_of_toNat_eq
  rw [config_toNat, toNat_and_clear_opcode]
  rcases decode_cases h with ⟨-, e⟩ | ⟨-, -, e⟩ | ⟨-, e⟩ | ⟨-, -, e⟩ <;> cases e
  have hw := wField_iff cmd
  simp only [initEngine_cfgW, initEngine_cfgCap, initEngine_cfgOutlen, capField_toNat, outlenField_toNat,
    widthBit_widthOfBit]
  cases hb : wField cmd <;> simp [hb] at hw ⊢ <;> omega

/-- An accepted SQUEEZE adds its bytes to OUTCNT (20_memory R61). -/
theorem outcnt_after_squeeze {nb : Nat} {k : Engine} (h : k.outcnt.toNat + nb ≤ k.cfgOutlen.toNat) :
    (memRead .outcnt (squeezeEngine nb k)).toNat = (memRead .outcnt k).toNat + nb := by
  have := k.cfgOutlen.isLt
  rw [outcnt_toNat, outcnt_toNat, squeezeEngine_eq h, BitVec.toNat_ofNat, Nat.mod_eq_of_lt (by omega)]

end Sys2Proof.Machine
end

section
/-! PROOFS. The statements about the registers hosts reach: CMD, STATUS, CONFIG, OUTCNT and the reserved offsets; DIN; and
what reads and writes leave unchanged. -/

namespace Sys2Proof.Memory

open Sys2Proof.Machine

/-- Settles O45: each clause is the rule of its register; the examples are runs of accepted commands. -/
theorem registerBlockLayout : Obligations.RegisterBlockLayout := by
  have config_read : ∀ (s : State) (cmd : Word) w cap len, decode cmd = .ok (.init w cap len) →
      validConfig w cap len = true →
        ∃ t, executeCommand cmd s = .next t ∧ memRead .config t.engine = cmd &&& 0xFFFFFFF0 :=
    fun s _ _ _ _ hd hv => ⟨_, (executeCommand_of_ok hd s).trans (exec_init_of_valid hv s), config_after_init hd _⟩
  refine ⟨serve_writeOf_cmd, serve_writeOf_finalize, ?_, fun k => ?_, config_read,
    config_read State.reset 0x00202011 .kpe1600 256 32 (by decide) (by decide), ?_, ?_, ?_, ?_, ?_⟩
  · rintro h r s (rfl | rfl | rfl) <;> exact ⟨rfl, serve_readOf_observed h _ s⟩
  · obtain ⟨hp, he, h4, hb, hc, h24⟩ := status_fields k
    obtain ⟨h0, hw, hcap, hlen⟩ := config_fields k
    exact ⟨hp, he, h4, hb, hc, h24, h0, hw, hcap, hlen, outcnt_toNat k⟩
  · exact ⟨_, rfl, by decide⟩ -- R59's example
  · rintro h r v s (rfl | rfl | rfl | rfl | rfl) <;> exact serve_writeOf_ignored (by decide) (by decide) h v s
  · exact fun s hp => ⟨_, exec_finalize_of_absorbing hp, rfl⟩
  · exact fun nb s ⟨hp, hn⟩ => ⟨_, exec_squeeze_of_squeezing hp hn, outcnt_after_squeeze hn⟩
  · exact ⟨_, rfl, BitVec.eq_of_toNat_eq (outcnt_after_squeeze (by decide))⟩ -- R61's example

/-- Settles O46: no command writes DIN, and of the commands ABSORB alone reads it. -/
theorem dinHoldsWhatWasWritten : Obligations.DinHoldsWhatWasWritten :=
  ⟨serve_writeOf_din, fun _ => rfl, rfl, fun _ _ _ => exec_keeps_din,
    fun nb _ hp => ⟨_, exec_absorb_of_absorbing hp nb, rfl⟩,
    fun _ d _ _ hi h => exec_din_update hi h d,
    ⟨_, runLines_wrDin 0 0x00636261 [.rd .din] State.reset, rfl⟩⟩

/-- Settles O47; the word that is not idempotent is FINALIZE in ABSORBING, whose second run is an error. -/
theorem readsHaveNoSideEffects : Obligations.ReadsHaveNoSideEffects := by
  refine ⟨serve_readOf_observed, fun h v s => ?_, fun g a s t obs h => serve_observed_congr h obs, serve_writeOf_cmd,
    ⟨0, 0x00000003, { State.reset with engine := initEngine .kpe200 168 4 Engine.reset },
      finalize_write_not_idempotent 0 rfl rfl⟩,
    fun h r v s hc hd => serve_writeOf_ignored hc hd h v s⟩
  rw [serve_writeOf_din, andThen_next]
  exact serve_writeOf_din h v { s with engine := { s.engine with din := v } }

end Sys2Proof.Memory
end

section
/-! SUPPORT. The opcode map of 30_encoding R86: the masks in numbers, and which words decode to which command. -/

namespace Sys2Proof

/-! ## The masks -/

/-- The mask of format I keeps the opcode (30_encoding R86). -/
theorem and_maskI_eq_iff (cmd : Word) (n : Nat) (hn : n < 16) :
    cmd &&& 0x0000000F = BitVec.ofNat 32 n ↔ cmd.toNat % 16 = n := by
  have low : (cmd &&& 0x0000000F).toNat = cmd.toNat % 16 := Nat.and_two_pow_sub_one_eq_mod cmd.toNat 4
  rw [← BitVec.toNat_inj, low, BitVec.toNat_ofNat]
  omega

/-- The mask of format N drops NBM1 and keeps the opcode and the reserved bits (30_encoding R86). -/
theorem toNat_and_maskN (cmd : Word) : (cmd &&& 0xFFFFFFCF).toNat = cmd.toNat / 64 * 64 + cmd.toNat % 16 := by
  have hlt := cmd.isLt
  have e : (cmd &&& 0xFFFFFFCF).toNat = cmd.toNat &&& 0xFFFFFFCF := rfl
  have opcode : (cmd.toNat &&& 0xFFFFFFCF) % 2 ^ 4 = cmd.toNat % 16 := by
    rw [Nat.and_mod_two_pow]
    exact (Nat.and_two_pow_sub_one_eq_mod _ 4).trans (Nat.mod_mod _ _)
  have nbm1 : (cmd.toNat &&& 0xFFFFFFCF) / 2 ^ 4 % 2 ^ 2 = 0 := by
    rw [Nat.and_div_two_pow, Nat.and_mod_two_pow]
    exact Nat.and_zero _
  have reserved : (cmd.toNat &&& 0xFFFFFFCF) / 2 ^ 6 = cmd.toNat / 64 % 2 ^ 26 := by
    rw [Nat.and_div_two_pow]
    exact Nat.and_two_pow_sub_one_eq_mod _ 26
  omega

theorem and_maskN_eq_iff (cmd : Word) (n : Nat) (hn : n < 16) :
    cmd &&& 0xFFFFFFCF = BitVec.ofNat 32 n ↔ cmd.toNat % 16 = n ∧ cmd.toNat / 64 = 0 := by
  rw [← BitVec.toNat_inj, toNat_and_maskN, BitVec.toNat_ofNat]
  omega

/-- The mask of format Z keeps the whole word (30_encoding R86). -/
theorem and_maskZ_eq_iff (cmd : Word) : cmd &&& 0xFFFFFFFF = 0x00000003 ↔ cmd.toNat = 3 := by
  have all : cmd &&& 0xFFFFFFFF = cmd := BitVec.and_allOnes
  rw [all, ← BitVec.toNat_inj]
  exact Iff.rfl

/-! ## The rows -/

theorem decode_eq_init_iff (cmd : Word) (w : Width) (cap : BitVec 11) (len : BitVec 16) :
    decode cmd = .ok (.init w cap len) ↔
      cmd.toNat % 16 = 1 ∧ w = widthOfBit (wField cmd) ∧ cap = capField cmd ∧ len = outlenField cmd := by
  constructor
  · intro h
    rcases decode_cases h with ⟨ho, e⟩ | ⟨-, -, e⟩ | ⟨-, e⟩ | ⟨-, -, e⟩ <;> cases e
    exact ⟨ho, rfl, rfl, rfl⟩
  · rintro ⟨ho, rfl, rfl, rfl⟩
    simp [decode_eq, ho]

theorem decode_eq_absorb_iff (cmd : Word) (nb : Nat) :
    decode cmd = .ok (.absorb nb) ↔
      cmd.toNat % 16 = 2 ∧ cmd.toNat / 64 = 0 ∧ nb = cmd.toNat / 2 ^ 4 % 4 + 1 := by
  constructor
  · intro h
    rcases decode_cases h with ⟨-, e⟩ | ⟨ho, hr, e⟩ | ⟨-, e⟩ | ⟨-, -, e⟩ <;> cases e
    exact ⟨ho, hr, rfl⟩
  · rintro ⟨ho, hr, rfl⟩
    simp [decode_eq, ho, hr]

theorem decode_eq_finalize_iff (cmd : Word) : decode cmd = .ok .finalize ↔ cmd.toNat = 3 := by
  constructor
  · intro h
    rcases decode_cases h with ⟨-, e⟩ | ⟨-, -, e⟩ | ⟨h3, e⟩ | ⟨-, -, e⟩ <;> cases e
    exact h3
  · intro h3
    simp [decode_eq, h3]

theorem decode_eq_squeeze_iff (cmd : Word) (nb : Nat) :
    decode cmd = .ok (.squeeze nb) ↔
      cmd.toNat % 16 = 4 ∧ cmd.toNat / 64 = 0 ∧ nb = cmd.toNat / 2 ^ 4 % 4 + 1 := by
  constructor
  · intro h
    rcases decode_cases h with ⟨-, e⟩ | ⟨-, -, e⟩ | ⟨-, e⟩ | ⟨ho, hr, e⟩ <;> cases e
    exact ⟨ho, hr, rfl⟩
  · rintro ⟨ho, hr, rfl⟩
    simp [decode_eq, ho, hr]

/-- The illegal words are those of no row (30_encoding R86 to R88). -/
theorem decode_error_iff (cmd : Word) :
    (∃ e, decode cmd = .error e) ↔
      ¬(cmd.toNat % 16 = 1 ∨ (cmd.toNat % 16 = 2 ∧ cmd.toNat / 64 = 0) ∨ cmd.toNat = 3 ∨
        (cmd.toNat % 16 = 4 ∧ cmd.toNat / 64 = 0)) := by
  constructor
  · rintro ⟨e, he⟩ (ho | ⟨ho, hr⟩ | h3 | ⟨ho, hr⟩)
    · cases he.symm.trans ((decode_eq_init_iff cmd _ _ _).2 ⟨ho, rfl, rfl, rfl⟩)
    · cases he.symm.trans ((decode_eq_absorb_iff cmd _).2 ⟨ho, hr, rfl⟩)
    · cases he.symm.trans ((decode_eq_finalize_iff cmd).2 h3)
    · cases he.symm.trans ((decode_eq_squeeze_iff cmd _).2 ⟨ho, hr, rfl⟩)
  · intro hno
    cases hd : decode cmd with
    | error e => exact ⟨e, rfl⟩
    | ok i =>
      rcases decode_cases hd with ⟨ho, -⟩ | ⟨ho, hr, -⟩ | ⟨h3, -⟩ | ⟨ho, hr, -⟩ <;> exact absurd (by omega) hno

/-- The width an INIT word selects, as its bit [4]. -/
theorem widthOfBit_wField_iff (cmd : Word) : widthOfBit (wField cmd) = .kpe1600 ↔ cmd.toNat / 2 ^ 4 % 2 = 1 := by
  rw [← wField_iff]
  cases wField cmd <;> decide

end Sys2Proof
end

section
/-! PROOFS. The statements about the encoding of command words: the opcode map, the operand fields, and the words that
only record an error. -/

namespace Sys2Proof.Encoding

open Sys2Proof.Machine

/-- Settles O3: in numbers a row of the opcode map says what the decoder's branch for it tests. -/
theorem opcodeMapSelectsCommands : Obligations.OpcodeMapSelectsCommands := by
  intro cmd
  have init : cmd &&& 0x0000000F = 0x00000001 ↔ _ := and_maskI_eq_iff cmd 1 (by omega)
  have absorb : cmd &&& 0xFFFFFFCF = 0x00000002 ↔ _ := and_maskN_eq_iff cmd 2 (by omega)
  have squeeze : cmd &&& 0xFFFFFFCF = 0x00000004 ↔ _ := and_maskN_eq_iff cmd 4 (by omega)
  rw [init, absorb, and_maskZ_eq_iff, squeeze]
  refine ⟨?_, ?_, decode_eq_finalize_iff cmd, ?_, decode_error_iff cmd⟩
  · simp [decode_eq_init_iff]
  · simp [decode_eq_absorb_iff]
  · simp [decode_eq_squeeze_iff]

/-- Settles O4: the operands of each row, as numbers of the word's fields. -/
theorem operandsAreUnsignedFields : Obligations.OperandsAreUnsignedFields := by
  refine fun cmd => ⟨fun w cap len h => ?_, fun nb h => ?_, fun nb h => ?_⟩
  · obtain ⟨-, rfl, rfl, rfl⟩ := (decode_eq_init_iff cmd w cap len).1 h
    exact ⟨widthOfBit_wField_iff cmd, capField_toNat cmd, outlenField_toNat cmd⟩
  · obtain ⟨-, -, rfl⟩ := (decode_eq_absorb_iff cmd nb).1 h
    omega
  · obtain ⟨-, -, rfl⟩ := (decode_eq_squeeze_iff cmd nb).1 h
    omega

/-- Settles O6: a word with a reserved opcode is in no row. -/
theorem reservedOpcodeOnlyRecordsIllegal : Obligations.ReservedOpcodeOnlyRecordsIllegal := by
  intro cmd s hop
  obtain ⟨e, he⟩ := (decode_error_iff cmd).2 (by omega)
  exact executeCommand_of_error he s

/-- Settles O7: a word with a reserved bit set is in no row; INIT's row has no reserved bit, and an unsupported
configuration is an INIT that is not accepted. -/
theorem reservedBitsOnlyRecordIllegal : Obligations.ReservedBitsOnlyRecordIllegal := by
  refine ⟨fun cmd s hbits => ?_, fun cmd s hop => ?_, ⟨.reservedBits, by decide⟩, by decide⟩
  · obtain ⟨e, he⟩ := (decode_error_iff cmd).2 (by omega)
    exact executeCommand_of_error he s
  · have hd := (decode_eq_init_iff cmd _ _ _).2 ⟨hop, rfl, rfl, rfl⟩
    refine ⟨_, _, _, hd, fun hv => (executeCommand_of_ok hd s).trans (exec_of_not_accepted ?_)⟩
    simp [Accepted, hv]

end Sys2Proof.Encoding
end

section
/-! SUPPORT. What each step of a round does to one lane (40_permutation R103 to R110). -/

namespace Sys2Proof.Machine

/-! ## The lanes after a step -/

@[simp] theorem lane_theta {w : Nat} (A : Grid w) (x y : Fin 5) :
    lane (theta A) x y = lane A x y ^^^ (columnParity A (x - 1) ^^^ (columnParity A (x + 1)).rotateLeft 1) :=
  lane_ofLanes _ x y

@[simp] theorem lane_rho (c : Width) (A : Grid (laneBits c)) (x y : Fin 5) :
    lane (rho c A) x y = (lane A x y).rotateLeft (rhoOffset c x y) :=
  lane_ofLanes _ x y

@[simp] theorem lane_chi {w : Nat} (B : Grid w) (x y : Fin 5) :
    lane (chi B) x y = lane B x y ^^^ (~~~lane B (x + 1) y &&& lane B (x + 2) y) :=
  lane_ofLanes _ x y

@[simp] theorem lane_iota (c : Width) (A : Grid (laneBits c)) (ir : Nat) (x y : Fin 5) :
    lane (iota c A ir) x y = if x = 0 ∧ y = 0 then lane A 0 0 ^^^ roundConstant c ir else lane A x y :=
  lane_ofLanes _ x y

/-! ## Theta: the columns -/

/-- The parity of a column of a grid whose only lane that is not 0 stands at `(a, b)`. -/
theorem columnParity_of_single {w : Nat} {A : Grid w} {a b : Fin 5} {v : BitVec w}
    (h : ∀ x y, lane A x y = if x = a ∧ y = b then v else 0) (x : Fin 5) :
    columnParity A x = if x = a then v else 0 := by
  by_cases hx : x = a
  · fin_cases b <;> simp [columnParity, h, hx]
  · simp [columnParity, h, hx]

@[simp] theorem zero_rotateLeft (w r : Nat) : (0#w).rotateLeft r = 0#w := by
  simp [BitVec.rotateLeft, BitVec.rotateLeftAux]

/-- Theta spreads a single lane `v` at `(a, b)` to the columns on both sides of it, rotated by one on the left. -/
theorem lane_theta_of_single {w : Nat} {A : Grid w} {a b : Fin 5} {v : BitVec w}
    (h : ∀ x y, lane A x y = if x = a ∧ y = b then v else 0) (x y : Fin 5) :
    lane (theta A) x y = if x = a - 1 then v.rotateLeft 1 else if x = a + 1 then v
      else if x = a ∧ y = b then v else 0 := by
  have left : x + 1 = a ↔ x = a - 1 := eq_sub_iff_add_eq.symm
  have right : x - 1 = a ↔ x = a + 1 := sub_eq_iff_eq_add
  have apart : ∀ a : Fin 5, a - 1 ≠ a + 1 ∧ a - 1 ≠ a ∧ a + 1 ≠ a := by decide
  obtain ⟨hlr, hla, hra⟩ := apart a
  rw [lane_theta, columnParity_of_single h, columnParity_of_single h, h]
  simp only [left, right]
  by_cases hl : x = a - 1
  · simp [hl, hlr, hla]
  · by_cases hr : x = a + 1
    · simp [hr, hlr.symm, hra]
    · simp [hl, hr]

/-! ## Rho: the offsets of R105 -/

/-- An offset is below the width of a lane (40_permutation R104). -/
theorem rhoOffset_lt (c : Width) (x y : Fin 5) : rhoOffset c x y < laneBits c := by
  revert x y
  cases c <;> decide

/-- A lane whose offset is 0 stays. -/
theorem lane_rho_of_offset_zero {c : Width} {x y : Fin 5} (h : rhoOffset c x y = 0) (A : Grid (laneBits c)) :
    lane (rho c A) x y = lane A x y := by
  rw [lane_rho, h, rotateLeft_zero]

/-! ## The walk of R106 -/

theorem length_rhoWalk (w n t : Nat) (x y : Fin 5) : (rhoWalk w n t x y).length = n := by
  induction n generalizing t x y with
  | zero => rfl
  | succ n ih => simp [rhoWalk, ih]

/-- The positions of the walk are the same for every width. -/
theorem positions_rhoWalk (w v n t : Nat) (x y : Fin 5) :
    ((rhoWalk w n t x y).map fun p => (p.1, p.2.1)) = (rhoWalk v n t x y).map fun p => (p.1, p.2.1) := by
  induction n generalizing t x y with
  | zero => rfl
  | succ n ih => simp [rhoWalk, ih]

/-- The walk visits no position twice and never `(0,0)`, at every width (40_permutation R106). -/
theorem nodup_positions_rhoGenerated (w : Nat) :
    ((rhoGenerated w).map fun p => (p.1, p.2.1)).Nodup := by
  have same : ((rhoGenerated w).map fun p => (p.1, p.2.1)) = (rhoGenerated 8).map fun p => (p.1, p.2.1) :=
    congrArg (List.cons (0, 0)) (positions_rhoWalk w 8 24 0 1 0)
  rw [same]
  decide

/-- At each position of the walk the table of R105 holds the walk's offset. -/
theorem rhoOffset_of_mem_rhoGenerated (c : Width) :
    ∀ p ∈ rhoGenerated (laneBits c), rhoOffset c p.1 p.2.1 = p.2.2 := by
  cases c <;> decide

/-! ## Iota: the lanes it leaves -/

/-- A round whose constant is 0 is one in which iota changes nothing (40_permutation R110). -/
theorem iota_of_constant_zero {c : Width} {ir : Nat} (h : roundConstant c ir = 0) (A : Grid (laneBits c)) :
    iota c A ir = A := by
  refine grid_ext fun x y => ?_
  by_cases hxy : x = 0 ∧ y = 0
  · obtain ⟨rfl, rfl⟩ := hxy
    simp [h]
  · simp [hxy]

end Sys2Proof.Machine
end

section
/-! PROOFS. The statements about the steps of a round, lane by lane, and about the recurrences behind their tables. -/

namespace Sys2Proof.Permutation

open Sys2Proof.Machine

/-- Settles O31; the example is a grid of one lane, whose columns 0 and 2 are the neighbours of its column 1. -/
theorem thetaLanes : Obligations.ThetaLanes :=
  ⟨fun _ A x y => lane_theta A x y, fun _ hA x y => lane_theta_of_single hA x y⟩

/-- Settles O32: the lanes that stay are those whose offset in R105 is 0. -/
theorem rhoLanes : Obligations.RhoLanes := by
  refine ⟨fun c A x y => ⟨lane_rho c A x y, rhoOffset_lt c x y⟩, fun c A => lane_rho_of_offset_zero ?_ A,
    fun A => ⟨lane_rho_of_offset_zero rfl A, lane_rho_of_offset_zero rfl A⟩, fun A hA => ?_⟩
  · cases c <;> rfl
  · rw [lane_rho, hA]
    rfl -- R104's example

/-- Settles O35: within `w` bits the complement is XOR with all ones. -/
theorem chiLanes : Obligations.ChiLanes := by
  refine ⟨fun w B x y => ?_, fun B h0 h => ?_⟩
  · rw [lane_chi, BitVec.xor_allOnes]
  · have h1 := h 1 (by decide)
    have h2 := h 2 (by decide)
    have h3 := h 3 (by decide)
    have h4 := h 4 (by decide)
    simp [h0, h1, h2, h3, h4]

/-- Settles O36: the constant of round 3 is 0 in KPE-200, and that of round 0 is 1. -/
theorem iotaLanes : Obligations.IotaLanes := by
  refine ⟨lane_iota, iota_of_constant_zero rfl, fun A hA => ?_⟩
  rw [lane_iota, if_pos ⟨rfl, rfl⟩, hA]
  rfl -- R110's example

/-- Settles O37: the positions do not depend on the width, and the offsets are compared with each table. -/
theorem offsetsFollowRecurrence : Obligations.OffsetsFollowRecurrence := fun c =>
  ⟨nodup_positions_rhoGenerated (laneBits c), congrArg (· + 1) (length_rhoWalk (laneBits c) 24 0 1 0),
    rhoOffset_of_mem_rhoGenerated c⟩

/-- Settles O38: the generator is run for each of the 18 and 24 rounds and compared with the table of R111. -/
theorem roundConstantsFollowRecurrence : Obligations.RoundConstantsFollowRecurrence := by
  refine ⟨?_, ?_⟩
  · decide
  · decide

end Sys2Proof.Permutation
end

section
/-! SUPPORT. State bytes by lane, and what any number of steps of XorBlock does to one byte and to one lane
(41_sponge R142, R144). -/

namespace Sys2Proof.Machine

/-! ## State bytes by lane -/

/-- State byte `LB·l + j` is byte `j` of lane `l`, at both widths (41_sponge R142). -/
theorem stateByte_lane (c : Width) (S : Vector Lane 25) {l j : Nat} (hl : l < 25) (hj : j < laneBytes c) :
    stateByte c S (laneBytes c * l + j) = S[l].extractLsb' (8 * j) 8 := by
  have hdiv : (laneBytes c * l + j) / laneBytes c = l := by
    rw [Nat.mul_add_div (laneBytes_pos c), Nat.div_eq_of_lt hj, Nat.add_zero]
  have hmod : (laneBytes c * l + j) % laneBytes c = j := by rw [Nat.mul_add_mod, Nat.mod_eq_of_lt hj]
  rw [stateByte, hdiv, hmod, toList_getD_eq_getElem S l 0 hl]

/-! ## The steps of XorBlock -/

/-- The first `n` steps XOR byte `i` of the block into state byte `i` for `i < n`, and into no other. -/
theorem stateByte_xorFirst (c : Width) (S : Vector Lane 25) (blk : List Byte) (n : Nat) {i : Nat}
    (hi : i < 25 * laneBytes c) :
    stateByte c (xorFirst c S blk n) i = if i < n then stateByte c S i ^^^ blk.getD i 0 else stateByte c S i := by
  induction n with
  | zero => simp [xorFirst_zero]
  | succ n ih =>
    rw [xorFirst_succ, stateByte_setXor _ _ _ _ _ hi, ih]
    rcases lt_trichotomy i n with h | h | h
    · simp [h, h.ne, Nat.lt_succ_of_lt h]
    · simp [h]
    · simp [h.ne', h.not_gt, Nat.not_lt.mpr (Nat.succ_le_of_lt h)]

/-- Steps that end before the first byte of lane `l` leave the whole lane, its physical bits above `w` included. -/
theorem getElem_xorFirst_of_le (c : Width) (S : Vector Lane 25) (blk : List Byte) {n l : Nat} (hl : l < 25)
    (h : n ≤ laneBytes c * l) : (xorFirst c S blk n)[l] = S[l] := by
  induction n with
  | zero => rfl
  | succ n ih =>
    have hn : n / laneBytes c ≠ l := (Nat.div_lt_of_lt_mul h).ne
    rw [xorFirst_succ, getElem_setXor _ _ _ _ _ hl, if_neg hn, ih (Nat.le_of_succ_le h)]

/-- Steps whose bytes are 0 change nothing. -/
theorem xorFirst_eq_of_zeros {c : Width} {S : Vector Lane 25} {blk : List Byte} {m n : Nat} (hmn : m ≤ n)
    (h : ∀ i, m ≤ i → i < n → blk.getD i 0 = 0) : xorFirst c S blk n = xorFirst c S blk m := by
  induction n, hmn using Nat.le_induction with
  | base => rfl
  | succ n hmn ih =>
    rw [xorFirst_succ, h n hmn n.lt_succ_self, setXor_zero, ih fun i hm hi => h i hm (Nat.lt_succ_of_lt hi)]

/-- The rate ends at a lane boundary (41_sponge R141). -/
theorem rateBytes_eq_lanes (c : Width) : laneBytes c * (rateBytes c / laneBytes c) = rateBytes c := by
  cases c <;> decide

/-- XorBlock XORs the block into the first `R` state bytes (41_sponge R144). -/
theorem stateByte_xorBlock (c : Width) (S : Vector Lane 25) (blk : List Byte) {i : Nat} (hi : i < 25 * laneBytes c) :
    stateByte c (xorBlock c S blk) i =
      if i < rateBytes c then stateByte c S i ^^^ blk.getD i 0 else stateByte c S i :=
  stateByte_xorFirst c S blk (rateBytes c) hi

/-- XorBlock leaves the capacity lanes (41_sponge R144). -/
theorem getElem_xorBlock_capacity (c : Width) (S : Vector Lane 25) (blk : List Byte) {l : Nat} (hl : l < 25)
    (h : rateBytes c / laneBytes c ≤ l) : (xorBlock c S blk)[l] = S[l] :=
  getElem_xorFirst_of_le c S blk hl (rateBytes_eq_lanes c ▸ Nat.mul_le_mul_left _ h)

/-- A padded block holds 0 between its first pad byte and its last byte (42_padding R161). -/
theorem padBlock_getD_between (c : Width) (buf : List Byte) {k i : Nat} (hk : k < i) (hi : i < rateBytes c - 1) :
    (padBlock c buf k).getD i 0 = 0 := by
  rw [padBlock_getD _ _ _ _ (by omega), if_neg (by omega), if_neg (by omega), if_neg (by omega), if_neg (by omega)]

end Sys2Proof.Machine
end

section
/-! PROOFS. The statement about the sponge datapath: state bytes, SetXor and XorBlock. -/

namespace Sys2Proof.Sponge

open Sys2Proof.Machine

/-- The first example of R143: of the bytes `61 62 63 00 …` only three steps of XorBlock change the state. -/
theorem xorBlock_abc :
    xorBlock .kpe1600 (Vector.replicate 25 0) ([0x61, 0x62, 0x63] ++ List.replicate 165 0) =
      setXor .kpe1600 (setXor .kpe1600 (setXor .kpe1600 (Vector.replicate 25 0) 0 0x61) 1 0x62) 2 0x63 := by
  refine (xorFirst_eq_of_zeros (m := 3) (by decide) fun i hm hi => ?_).trans rfl
  rw [List.getD_append_right _ _ _ _ hm]
  exact List.getD_replicate _ (Nat.sub_lt_left_of_lt_add hm hi)

/-- The second example of R143: the pad adds the steps at the bytes 3 and 167. -/
theorem xorBlock_padded_abc :
    xorBlock .kpe1600 (Vector.replicate 25 0) (padBlock .kpe1600 [0x61, 0x62, 0x63] 3) =
      setXor .kpe1600 (setXor .kpe1600 (setXor .kpe1600 (setXor .kpe1600 (setXor .kpe1600 (Vector.replicate 25 0)
        0 0x61) 1 0x62) 2 0x63) 3 0x01) 167 0x80 := by
  have zeros : xorFirst .kpe1600 (Vector.replicate 25 0) (padBlock .kpe1600 [0x61, 0x62, 0x63] 3) 167 =
      xorFirst .kpe1600 (Vector.replicate 25 0) (padBlock .kpe1600 [0x61, 0x62, 0x63] 3) 4 :=
    xorFirst_eq_of_zeros (by decide) fun i hm hi => padBlock_getD_between .kpe1600 _ hm hi
  rw [xorBlock_eq_xorFirst, show rateBytes .kpe1600 = 167 + 1 from rfl, xorFirst_succ, zeros]
  rfl

/-- Settles O41: by induction on the steps of XorBlock, byte by byte and lane by lane. -/
theorem stateBytesAndXorBlock : Obligations.StateBytesAndXorBlock := by
  refine ⟨fun S l => ?_, fun S l j => stateByte_lane .kpe1600 S l.isLt j.isLt,
    fun c S i j v _ hj => stateByte_setXor c S i j v hj,
    fun c S blk _ => ⟨fun i => stateByte_xorBlock c S blk, fun l => getElem_xorBlock_capacity c S blk l.isLt⟩,
    ?_, ?_, ?_⟩
  · have h := stateByte_lane .kpe200 S l.isLt (j := 0) (by decide)
    rwa [show laneBytes .kpe200 = 1 from rfl, Nat.one_mul] at h
  · rw [xorBlock_abc]
    rfl
  · rw [xorBlock_padded_abc]
    rfl
  · rw [xorBlock_padded_abc]
    rfl

end Sys2Proof.Sponge
end

section
/-! SUPPORT. The bytes of a padded block by position, and the block cut at its first pad byte (42_padding R161). -/

namespace Sys2Proof.Machine

/-! ## One byte -/

/-- Below `k` stand the buffered bytes. -/
theorem padBlock_getD_buffered {c : Width} (buf : List Byte) {k i : Nat} (hk : k < rateBytes c) (hi : i < k) :
    (padBlock c buf k).getD i 0 = buf.getD i 0 := by
  rw [padBlock_getD _ _ _ _ (hi.trans hk), if_pos hi]

/-- A pad of one byte holds both end bits. -/
theorem padBlock_getD_single {c : Width} (buf : List Byte) {k : Nat} (hk : k = rateBytes c - 1) :
    (padBlock c buf k).getD k 0 = 0x81 := by
  have hR := rateBytes_pos c
  rw [padBlock_getD _ _ _ _ (by omega), if_neg k.lt_irrefl, if_pos hk, if_pos rfl]

/-- A longer pad begins with `0x01`. -/
theorem padBlock_getD_first {c : Width} (buf : List Byte) {k : Nat} (hk : k < rateBytes c - 1) :
    (padBlock c buf k).getD k 0 = 0x01 := by
  rw [padBlock_getD _ _ _ _ (by omega), if_neg k.lt_irrefl, if_neg hk.ne, if_pos rfl]

/-- A longer pad ends with `0x80`. -/
theorem padBlock_getD_last {c : Width} (buf : List Byte) {k : Nat} (hk : k < rateBytes c - 1) :
    (padBlock c buf k).getD (rateBytes c - 1) 0 = 0x80 := by
  rw [padBlock_getD _ _ _ _ (by omega), if_neg hk.not_gt, if_neg hk.ne, if_neg hk.ne', if_pos rfl]

/-! ## The two parts of the block -/

theorem padBlock_take {c : Width} {buf : List Byte} {k : Nat} (hk : k < rateBytes c) (hb : k ≤ buf.length) :
    (padBlock c buf k).take k = buf.take k := by
  refine List.ext_getElem (by simp [hk.le, hb]) fun i h _ => ?_
  have hi : i < k := h.trans_le (List.length_take_le k _)
  rw [List.getElem_take, List.getElem_take, ← List.getD_eq_getElem _ 0, ← List.getD_eq_getElem _ 0,
    padBlock_getD_buffered buf hk hi]

theorem padBlock_drop_single {c : Width} (buf : List Byte) {k : Nat} (hk : k = rateBytes c - 1) :
    (padBlock c buf k).drop k = [0x81] := by
  have hR := rateBytes_pos c
  have hlen : k < (padBlock c buf k).length := by rw [padBlock_length]; omega
  rw [List.drop_eq_getElem_cons hlen, ← List.getD_eq_getElem _ 0, padBlock_getD_single buf hk,
    List.drop_of_length_le (by rw [padBlock_length]; omega)]

theorem padBlock_drop_of_lt {c : Width} (buf : List Byte) {k : Nat} (hk : k < rateBytes c - 1) :
    (padBlock c buf k).drop k = 0x01 :: (List.replicate (rateBytes c - 2 - k) 0x00 ++ [0x80]) := by
  refine List.ext_getElem (by simp; omega) fun j h _ => ?_
  have hj : k + j < rateBytes c := by rw [List.length_drop, padBlock_length] at h; omega
  rw [List.getElem_drop, ← List.getD_eq_getElem _ 0]
  cases j with
  | zero => exact padBlock_getD_first buf hk
  | succ j =>
    rw [List.getElem_cons_succ]
    rcases Nat.lt_or_ge j (rateBytes c - 2 - k) with hz | hl
    · rw [padBlock_getD_between c buf (by omega) (by omega), List.getElem_append_left (by simpa using hz),
        List.getElem_replicate]
    · have hlast : k + (j + 1) = rateBytes c - 1 := by omega
      rw [hlast, padBlock_getD_last buf hk, List.getElem_append_right (by simpa using hl), List.getElem_singleton]

end Sys2Proof.Machine
end

section
/-! PROOFS. The statement about the padding encoder: the bytes of the final block. -/

namespace Sys2Proof.Padding

open Sys2Proof.Machine

/-- Settles O42: the block is its first `k` bytes and the rest, and the rest is the pad of one byte or the longer one. -/
theorem padBlockBytes : Obligations.PadBlockBytes := by
  refine fun c buf k hk hb => ⟨padBlock_length c buf k, ?_⟩
  rw [← List.take_append_drop k (padBlock c buf k), padBlock_take hk hb]
  split
  case isTrue h => rw [padBlock_drop_single buf h]
  case isFalse h => rw [padBlock_drop_of_lt buf (by omega)]

end Sys2Proof.Padding
end

section
/-! SUPPORT. What every command does to the phase and to `ERR`: the one inversion of `exec`, and the two fields that the
statements about the commands turn on. -/

namespace Sys2Proof.Machine

/-- Everything a command can do: an accepted one writes its engine, any other one records its error. -/
theorem exec_eq_next_cases {i : Instr} {s t : State} (h : exec i s = .next t) :
    (Accepted i s.engine ∧ t = { s with engine := acceptedEngine i s.engine }) ∨
      (¬Accepted i s.engine ∧ t = noteError (errorOf i) s) := by
  by_cases ha : Accepted i s.engine
  · exact .inl ⟨ha, Host.Outcome.next.inj (h.symm.trans (exec_of_accepted ha))⟩
  · exact .inr ⟨ha, Host.Outcome.next.inj (h.symm.trans (exec_of_not_accepted ha))⟩

/-! ## A failed command -/

/-- Recording an error never clears an error (60_exceptions R224). -/
theorem noteError_err_ne_none (e : ErrCode) {s : State} (h : s.engine.err ≠ .none) :
    (noteError e s).engine.err ≠ .none := by
  simp [noteError, h]

theorem exec_absorb_of_not_absorbing {s : State} (h : s.engine.phase ≠ .absorbing) (nb : Nat) :
    exec (.absorb nb) s = .next (noteError .invalidState s) :=
  exec_of_not_accepted (i := .absorb nb) h

theorem exec_finalize_of_not_absorbing {s : State} (h : s.engine.phase ≠ .absorbing) :
    exec .finalize s = .next (noteError .invalidState s) :=
  exec_of_not_accepted (i := .finalize) h

theorem exec_squeeze_of_not_squeezing {s : State} (h : s.engine.phase ≠ .squeezing) (nb : Nat) :
    exec (.squeeze nb) s = .next (noteError .invalidState s) :=
  exec_of_not_accepted (i := .squeeze nb) fun ha => h ha.1

theorem exec_init_of_invalid {w : Width} {cap : BitVec 11} {len : BitVec 16} (h : ¬validConfig w cap len = true)
    (s : State) : exec (.init w cap len) s = .next (noteError .invalidConfiguration s) :=
  exec_of_not_accepted (i := .init w cap len) h

/-! ## An accepted command -/

/-- No accepted command but INIT writes `ERR` (60_exceptions R226). -/
theorem acceptedEngine_err {i : Instr} (h : ∀ w cap len, i ≠ .init w cap len) (k : Engine) :
    (acceptedEngine i k).err = k.err := by
  cases i with
  | init w cap len => exact absurd rfl (h w cap len)
  | absorb nb => exact absorbBytes_err _ k
  | finalize => rfl
  | squeeze nb => exact squeezeBytes_err nb k

/-- An accepted SQUEEZE adds its bytes to `OUTCNT`, which does not wrap (43_commands R190). -/
theorem squeezeEngine_outcnt_toNat {nb : Nat} {k : Engine} (h : k.outcnt.toNat + nb ≤ k.cfgOutlen.toNat) :
    (squeezeEngine nb k).outcnt.toNat = k.outcnt.toNat + nb := by
  simpa only [outcnt_toNat] using outcnt_after_squeeze h

@[simp] theorem squeezeEngine_cfgOutlen (nb : Nat) (k : Engine) : (squeezeEngine nb k).cfgOutlen = k.cfgOutlen :=
  squeezeBytes_cfgOutlen nb k

/-- SQUEEZE ends in FINALIZED exactly when `OUTCNT` then is `CFG_OUTLEN` (43_commands R192). -/
theorem squeezeEngine_phase (nb : Nat) (k : Engine) :
    (squeezeEngine nb k).phase = if (squeezeEngine nb k).outcnt = k.cfgOutlen then .finalized else k.phase := by
  simp [squeezeEngine]

/-- Of the accepted commands only SQUEEZE can end in FINALIZED, and then with all its bytes produced (43_commands R192). -/
theorem squeeze_of_acceptedEngine_finalized {i : Instr} {k : Engine} (ha : Accepted i k)
    (h : (acceptedEngine i k).phase = .finalized) :
    ∃ nb, i = .squeeze nb ∧ (acceptedEngine i k).outcnt = (acceptedEngine i k).cfgOutlen := by
  cases i with
  | init w cap len => cases h
  | absorb nb => cases ((absorbBytes_phase _ k).trans ha).symm.trans h
  | finalize => cases h
  | squeeze nb =>
    have hcount : (squeezeEngine nb k).outcnt = k.cfgOutlen := by
      by_contra hne
      cases ((squeezeEngine_phase nb k).trans ((if_neg hne).trans ha.1)).symm.trans h
    exact ⟨nb, rfl, hcount.trans (squeezeEngine_cfgOutlen nb k).symm⟩

/-- In FINALIZED every command but INIT only records INVALID_STATE (43_commands R192). -/
theorem exec_of_finalized {i : Instr} {s : State} (hp : s.engine.phase = .finalized)
    (hi : ∀ w cap len, i ≠ .init w cap len) : exec i s = .next (noteError .invalidState s) := by
  cases i with
  | init w cap len => exact absurd rfl (hi w cap len)
  | absorb nb => exact exec_absorb_of_not_absorbing (by simp [hp]) nb
  | finalize => exact exec_finalize_of_not_absorbing (by simp [hp])
  | squeeze nb => exact exec_squeeze_of_not_squeezing (by simp [hp]) nb

/-- INIT forgets an earlier INIT (43_commands R172). -/
theorem initEngine_initEngine (w w' : Width) (cap cap' : BitVec 11) (len len' : BitVec 16) (k : Engine) :
    initEngine w cap len (initEngine w' cap' len' k) = initEngine w cap len k := rfl

/-- The last block FINALIZE absorbs is the buffered bytes and the pad (43_commands R180; 42_padding R161). -/
theorem finalizeEngine_eq {k : Engine} (h : k.bufcnt.toNat < rateBytes k.cfgW) :
    finalizeEngine k = { k with
      lanes := permute k.cfgW (xorBlock k.cfgW k.lanes (k.buf.toList.take k.bufcnt.toNat ++
        (if k.bufcnt.toNat = rateBytes k.cfgW - 1 then [0x81]
         else 0x01 :: (List.replicate (rateBytes k.cfgW - 2 - k.bufcnt.toNat) 0x00 ++ [0x80]))))
      buf := Vector.replicate 168 0, bufcnt := 0, cur := 0, outcnt := 0, phase := .squeezing } := by
  have hb : k.bufcnt.toNat ≤ k.buf.toList.length := by
    rw [Vector.length_toList]
    exact h.le.trans (rateBytes_le k.cfgW)
  rw [← (Padding.padBlockBytes k.cfgW k.buf.toList k.bufcnt.toNat h hb).2]
  rfl

end Sys2Proof.Machine
end

section
/-! PROOFS. The statements about the commands: INIT, FINALIZE, the table of phases, and the end of a hash. -/

namespace Sys2Proof.Commands

open Sys2Proof.Machine

/-- Settles O12: a valid INIT is the accepted one; no other command clears `ERR`, since an accepted one keeps it and a failed
one keeps the first error. -/
theorem initResult : Obligations.InitResult := by
  refine ⟨fun w cap len s => ⟨fun hv => ?_, fun hv => ?_⟩, fun i s t h hs ht => ?_, ?_⟩
  · have hinit := exec_init_of_valid ((validConfig_iff w cap len).2 hv)
    refine ⟨hinit s, ?_⟩
    rw [hinit s, andThen_next, hinit, initEngine_initEngine]
  · exact exec_init_of_invalid (mt (validConfig_iff w cap len).1 hv) s
  · rcases exec_eq_next_cases h with ⟨ha, rfl⟩ | ⟨-, rfl⟩
    · by_contra hno
      refine hs ((acceptedEngine_err ?_ s.engine).symm.trans ht)
      rintro w cap len rfl
      exact hno ⟨w, cap, len, rfl, ha⟩
    · exact absurd ht (noteError_err_ne_none _ hs)
  · exact ⟨_, rfl, by decide, by decide⟩ -- R172's example

/-- Settles O18: the padded block is that of 42_padding R161, a second FINALIZE finds the phase SQUEEZING, and a word with a
reserved bit set is in no row of the opcode map. -/
theorem finalizeResult : Obligations.FinalizeResult := by
  refine ⟨fun s hp hb => ?_, fun s => exec_finalize_of_not_absorbing, fun cmd s hop hbits => ?_, ?_⟩
  · exact ⟨_, exec_finalize_of_absorbing hp, by rw [finalizeEngine_eq hb], exec_finalize_again s⟩
  · exact Encoding.reservedBitsOnlyRecordIllegal.1 cmd s (.inr ⟨hop, hbits⟩)
  · refine ⟨_, rfl, congrArg (absorbBlock .kpe200 (Vector.replicate 25 0)) (?_ : padBlock .kpe200 _ _ = _), by decide⟩
    decide +kernel -- R180's example: the padded block is `61 62 63 81`

/-- Settles O25: the cells of the table are the accepted commands with their phases, the dashes those that are not. -/
theorem phaseTable : Obligations.PhaseTable := by
  refine fun s => ⟨fun w cap len hv => ⟨_, exec_init_of_valid hv s, rfl⟩,
    fun w cap len hv => exec_init_of_invalid (by simp [hv]) s,
    fun nb hp => ⟨_, exec_absorb_of_absorbing hp nb, (absorbBytes_phase _ _).trans hp⟩,
    fun nb hp => exec_absorb_of_not_absorbing hp nb,
    fun hp => ⟨_, exec_finalize_of_absorbing hp, rfl⟩,
    exec_finalize_of_not_absorbing,
    fun nb hp hn => ⟨_, exec_squeeze_of_squeezing hp hn, squeezeEngine_outcnt_toNat hn, ?_⟩,
    fun nb hp => exec_squeeze_of_not_squeezing hp nb,
    fun cmd e he => executeCommand_of_error he s⟩
  rw [squeezeEngine_phase, hp]

/-- Settles O29: of the accepted commands only SQUEEZE can end in FINALIZED, by its count, and only INIT is accepted there; a
failed command keeps the phase. -/
theorem finalizedAcceptsOnlyInit : Obligations.FinalizedAcceptsOnlyInit := by
  refine ⟨fun i s t h ht hs => ?_, fun nb s hp hn => ?_, fun i s hp hi => ?_, fun i s t hp h ht => ?_⟩
  · rcases exec_eq_next_cases h with ⟨ha, rfl⟩ | ⟨-, rfl⟩
    · exact squeeze_of_acceptedEngine_finalized ha ht
    · exact absurd ht hs
  · refine ⟨_, exec_squeeze_of_squeezing hp hn.le, ?_⟩
    rw [squeezeEngine_phase, if_pos (BitVec.eq_of_toNat_eq ((squeezeEngine_outcnt_toNat hn.le).trans hn))]
  · exact exec_of_finalized hp hi
  · by_contra hno
    cases h.symm.trans (exec_of_finalized hp fun w cap len hi => hno ⟨w, cap, len, hi⟩)
    exact ht hp

end Sys2Proof.Commands
end

section
/-! SUPPORT. `ERR` (60_exceptions §1): what every command word records, and which command, write and access can clear it. -/

namespace Sys2Proof.Machine

/-- The error of a failed command is an error (60_exceptions R221). -/
theorem errorOf_ne_none (i : Instr) : errorOf i ≠ .none := by
  cases i <;> exact nofun

/-- Every command word is an accepted command or only records an error (60_exceptions R220, R223). -/
theorem executeCommand_cases (cmd : Word) (s : State) :
    (∃ i, decode cmd = .ok i ∧ Accepted i s.engine) ∨
      ∃ e, e ≠ .none ∧ executeCommand cmd s = .next (noteError e s) := by
  cases hd : decode cmd with
  | error e => exact .inr ⟨.illegalCommand, nofun, executeCommand_of_error hd s⟩
  | ok i =>
    by_cases ha : Accepted i s.engine
    · exact .inl ⟨i, rfl, ha⟩
    · exact .inr ⟨errorOf i, errorOf_ne_none i, (executeCommand_of_ok hd s).trans (exec_of_not_accepted ha)⟩

/-! ## What clears `ERR` (60_exceptions R226) -/

/-- The command word of an INIT of a supported configuration. -/
def IsValidInit (cmd : Word) : Prop :=
  ∃ w cap len, decode cmd = .ok (.init w cap len) ∧ validConfig w cap len = true

/-- A command word that clears `ERR` is a valid INIT: any other accepted command keeps `ERR`, and a failed one keeps the
first error. -/
theorem isValidInit_of_executeCommand_clears_err {cmd : Word} {s t : State} (h : executeCommand cmd s = .next t)
    (hs : s.engine.err ≠ .none) (ht : t.engine.err = .none) : IsValidInit cmd := by
  obtain ⟨-, only_init_clears, -⟩ := Commands.initResult
  rcases executeCommand_cases cmd s with ⟨i, hd, -⟩ | ⟨e, -, he⟩
  · rw [executeCommand_of_ok hd] at h
    obtain ⟨w, cap, len, rfl, hv⟩ := only_init_clears i s t h hs ht
    exact ⟨w, cap, len, hd, hv⟩
  · cases he.symm.trans h
    exact absurd ht (noteError_err_ne_none e hs)

/-- A write that clears `ERR` is a write of a valid INIT to CMD. -/
theorem memWrite_clears_err {r : Reg} {v : Word} {s t : State} (h : memWrite r v s = .next t)
    (hs : s.engine.err ≠ .none) (ht : t.engine.err = .none) : r = .cmd ∧ IsValidInit v := by
  cases r with
  | cmd => exact ⟨rfl, isValidInit_of_executeCommand_clears_err h hs ht⟩
  | din | dout | status | config | outcnt | reserved18 | reserved1C => cases h; exact absurd ht hs

/-- An access that clears `ERR` is a write of a valid INIT to CMD. -/
theorem serve_clears_err {g : Nat} {a : Access} {s t : State} (h : serve g a s = .next t)
    (hs : s.engine.err ≠ .none) (ht : t.engine.err = .none) :
    ∃ cmd, target s.kpeBase a = .ok .cmd ∧ a.kind = .write cmd ∧ IsValidInit cmd := by
  rcases serve_cases g a s with ⟨e, -, he⟩ | ⟨r, -, -, he⟩ | ⟨r, v, -, hr, hk, he, -⟩ <;> rw [he] at h
  · cases h
  · cases h
    exact absurd ht hs
  · obtain ⟨rfl, hinit⟩ := memWrite_clears_err h hs ht
    exact ⟨v, hr, hk, hinit⟩

/-- A host's turn that clears `ERR` performs a write of a valid INIT to CMD. -/
theorem takeTurn_host_clears_err {g : Nat} {s t : State} (h : takeTurn (.host g) s = .next t)
    (hs : s.engine.err ≠ .none) (ht : t.engine.err = .none) :
    ∃ a hosts cmd, takeAccess g s.hosts = some (a, hosts) ∧ target s.kpeBase a = .ok .cmd ∧ a.kind = .write cmd ∧
      IsValidInit cmd := by
  simp only [takeTurn] at h
  split at h
  · cases h
    exact absurd ht hs
  · next a hosts htake =>
    obtain ⟨cmd, hr, hk, hinit⟩ := serve_clears_err h hs ht
    exact ⟨a, hosts, cmd, htake, hr, hk, hinit⟩

end Sys2Proof.Machine
end

section
/-! PROOFS. The statements about errors: the engine never stops, what a failed command changes, and what clears `ERR`. -/

namespace Sys2Proof.Exceptions

open Sys2Proof.Machine

/-- Settles O27: of the turns only a reset and a host's can change the engine, and of a host's accesses only the CMD write
of a valid INIT clears `ERR`. -/
theorem errClearedOnlyByResetOrInit : Obligations.ErrClearedOnlyByResetOrInit := by
  refine ⟨fun s t h hs ht => ?_, fun s rest hsch => ⟨_, step_cons hsch, rfl⟩,
    fun s w cap len hv => ⟨_, exec_init_of_valid hv s, rfl⟩,
    fun s h => ⟨_, serve_readOf h .status s, observe_engine .., ?_⟩⟩
  · cases hsch : s.schedule with
    | nil =>
      cases (step_nil hsch).symm.trans h
      exact absurd ht hs
    | cons turn rest =>
      cases turn with
      | reset => exact .inl ⟨rest, rfl⟩
      | resetDuring g held => exact .inr (.inl ⟨g, held, rest, rfl⟩)
      | host g =>
        rw [step_cons hsch] at h
        obtain ⟨a, hosts, cmd, htake, hr, hk, w, cap, len, hd, hv⟩ := takeTurn_host_clears_err h hs ht
        exact .inr (.inr ⟨g, rest, a, hosts, cmd, w, cap, len, rfl, htake, hr, hk, hd, hv⟩)
  · obtain ⟨-, herr, -⟩ := status_fields s.engine
    exact herr

/-- Settles O11: every command word is an accepted command or records an error, and there is no fault to raise. -/
theorem engineNeverStops : Obligations.EngineNeverStops := by
  refine ⟨fun cmd s => ?_, executeCommand_cases, fun _ => nofun, fun k => ?_⟩
  · obtain ⟨k, hk⟩ := executeCommand_writes_engine cmd s
    exact ⟨_, hk⟩
  · obtain ⟨-, herr, -⟩ := status_fields k
    exact herr

/-- Settles O26: a command that is not accepted notes its own error, a word that is no command ILLEGAL_COMMAND, and noting an
error keeps the first one. -/
theorem failedCommandChangesOnlyErr : Obligations.FailedCommandChangesOnlyErr :=
  ⟨fun _ _ => exec_of_not_accepted, fun _ _ s hd => executeCommand_of_error hd s⟩

end Sys2Proof.Exceptions
end

section
/-! SUPPORT. The reset turn and the registers of the reset engine (70_reset §1). -/

namespace Sys2Proof.Machine

/-- A reset turn always completes; of the block it leaves the reset engine, and outside it only the schedule moves on. -/
theorem step_reset {s : State} {rest : List Turn} (h : s.schedule = .reset :: rest) :
    step s = .next (resetBlock { s with schedule := rest }) :=
  step_cons h

/-- Every register of the reset engine reads 0: a data register because reset clears it, a packed one because each of its
fields has the code 0 (20_memory R51). -/
theorem memRead_reset (r : Reg) : memRead r Engine.reset = 0 := by
  cases r with
  | cmd | reserved18 | reserved1C => rfl
  | din | dout => rfl
  | status => exact BitVec.eq_of_toNat_eq (status_toNat Engine.reset)
  | config => exact BitVec.eq_of_toNat_eq (config_toNat Engine.reset)
  | outcnt => exact BitVec.eq_of_toNat_eq (outcnt_toNat Engine.reset)

end Sys2Proof.Machine
end

section
/-! PROOFS. The statement about reset: what a reset turn leaves of the engine, and what hosts read after it. -/

namespace Sys2Proof.Reset

open Sys2Proof.Machine

/-- Settles O53: a reset turn installs the reset engine, whose fields are R37's values, and that engine reads 0 everywhere. -/
theorem resetSetsEverything : Obligations.ResetSetsEverything :=
  ⟨fun _ _ => step_reset, rfl, rfl, rfl, memRead_reset⟩

end Sys2Proof.Reset
end

section
/-! SUPPORT. The two ways round between commands and words (30_encoding §1, §2). -/

namespace Sys2Proof

/-- There are two widths. -/
theorem width_eq_of_kpe1600_iff {w w' : Width} (h : w = .kpe1600 ↔ w' = .kpe1600) : w = w' := by
  cases w with
  | kpe1600 => exact (h.1 rfl).symm
  | kpe200 =>
    cases w' with
    | kpe200 => rfl
    | kpe1600 => exact absurd (h.2 rfl) nofun

/-- The INIT word decodes to its own fields: each is a digit of the word's number (30_encoding R82). -/
theorem decode_encode_init (w : Width) (cap : BitVec 11) (len : BitVec 16) :
    decode (encode (.init w cap len)) = .ok (.init w cap len) := by
  have hw := (widthBit w).isLt
  have hcap := cap.isLt
  have hlen := len.isLt
  have e := encode_init_toNat w cap len
  refine (decode_eq_init_iff _ _ _ _).2 ⟨by omega, ?_, BitVec.eq_of_toNat_eq ?_, BitVec.eq_of_toNat_eq ?_⟩
  · refine width_eq_of_kpe1600_iff ?_
    rw [widthOfBit_wField_iff, ← Machine.widthBit_eq_one_iff]
    omega
  · rw [capField_toNat]; omega
  · rw [outlenField_toNat]; omega

/-- Every well-formed command is what its word decodes to. -/
theorem decode_encode {i : Instr} (h : i.wf = true) : decode (encode i) = .ok i := by
  cases i with
  | init w cap len => exact decode_encode_init w cap len
  | absorb nb =>
    obtain ⟨h1, h4⟩ := byteCountOk_bounds h
    exact Machine.decode_encode_absorb h1 h4
  | finalize => decide
  | squeeze nb =>
    obtain ⟨h1, h4⟩ := byteCountOk_bounds h
    exact Machine.decode_encode_squeeze h1 h4

/-- A decoded byte count is one of 1 to 4 (30_encoding R85). -/
theorem byteCountOk_field (n : Nat) : byteCountOk (n % 4 + 1) = true := by
  simp [byteCountOk]; omega

theorem wf_of_decode {cmd : Word} {i : Instr} (h : decode cmd = .ok i) : i.wf = true := by
  rcases decode_cases h with ⟨-, rfl⟩ | ⟨-, -, rfl⟩ | ⟨-, rfl⟩ | ⟨-, -, rfl⟩
  · rfl
  · exact byteCountOk_field _
  · rfl
  · exact byteCountOk_field _

/-- A decoded command's word is the word it was decoded from: no bit of the word is left out. -/
theorem encode_of_decode {cmd : Word} {i : Instr} (h : decode cmd = .ok i) : encode i = cmd := by
  have hlt := cmd.isLt
  refine BitVec.eq_of_toNat_eq ?_
  rcases decode_cases h with ⟨ho, rfl⟩ | ⟨ho, hr, rfl⟩ | ⟨h3, rfl⟩ | ⟨ho, hr, rfl⟩
  · have hw := wField_iff cmd
    rw [encode_init_toNat, capField_toNat, outlenField_toNat, Machine.widthBit_widthOfBit]
    cases hb : wField cmd <;> simp [hb] at hw ⊢ <;> omega
  · rw [(encode_nb_toNat _).1]; omega
  · exact h3.symm
  · rw [(encode_nb_toNat _).2]; omega

end Sys2Proof

namespace Sys2Proof.Machine

/-! ## The assembler's checks (30_encoding R90) -/

theorem byteCountOk_iff (nb : Nat) : byteCountOk nb = true ↔ 1 ≤ nb ∧ nb ≤ 4 := by
  simp [byteCountOk]

theorem assemble_absorb_of_ok {nb : Nat} (h : byteCountOk nb = true) :
    assemble (.absorb nb) = some (encode (.absorb nb)) := if_pos h

theorem assemble_squeeze_of_ok {nb : Nat} (h : byteCountOk nb = true) :
    assemble (.squeeze nb) = some (encode (.squeeze nb)) := if_pos h

theorem assemble_init_of_fits {w c len : Nat} (hw : w = 200 ∨ w = 1600) (hc : c ≤ 2047) (hl : len ≤ 65535) :
    assemble (.init w c len) =
      some (encode (.init (if w = 200 then .kpe200 else .kpe1600) (BitVec.ofNat 11 c) (BitVec.ofNat 16 len))) := by
  rw [assemble, if_neg (by omega), if_neg (by omega)]

theorem assemble_init_of_misfit {w c len : Nat} (h : (w ≠ 200 ∧ w ≠ 1600) ∨ 2047 < c ∨ 65535 < len) :
    assemble (.init w c len) = none := by
  rw [assemble]
  split
  · rfl
  · rw [if_pos (by omega)]

end Sys2Proof.Machine
end

section
/-! PROOFS. The statements about the encoding as a whole: the round trips, the assembler and the example words. -/

namespace Sys2Proof.Encoding

open Sys2Proof.Machine

/-- Settles O1: an INIT word's number has the fields as its digits, and the words of the other commands are nine. -/
theorem decodeOfEncode : Obligations.DecodeOfEncode := fun _ => decode_encode

/-- Settles O2: the branch that decoded the word fixes the opcode and the reserved bits, and the operands fix the rest. -/
theorem encodeOfDecode : Obligations.EncodeOfDecode := fun _ _ h => ⟨wf_of_decode h, encode_of_decode h⟩

/-- Settles O8: where the assembler's check passes, the word is the encoder's and decodes back; else there is none. -/
theorem assembledCommandsDecode : Obligations.AssembledCommandsDecode := by
  refine ⟨fun c len hc hl => ⟨⟨_, assemble_init_of_fits (.inl rfl) hc hl, decode_encode_init _ _ _⟩,
      ⟨_, assemble_init_of_fits (.inr rfl) hc hl, decode_encode_init _ _ _⟩⟩,
    fun w c len => assemble_init_of_misfit, fun nb h1 h4 => ?_, fun nb h => ?_, rfl, fun v => ?_, fun v hv => ?_⟩
  · have hok := (byteCountOk_iff nb).2 ⟨h1, h4⟩
    exact ⟨⟨_, assemble_absorb_of_ok hok, decode_encode_absorb h1 h4⟩,
      ⟨_, assemble_squeeze_of_ok hok, decode_encode_squeeze h1 h4⟩⟩
  · have hno : ¬byteCountOk nb = true := fun hok => by have := (byteCountOk_iff nb).1 hok; omega
    exact ⟨if_neg hno, if_neg hno⟩
  · rw [assemble, if_pos v.isLt, BitVec.ofNat_toNat, BitVec.setWidth_eq]
  · exact if_neg (by omega)

/-- Settles O5: the decoder is run on each of the eight words of R93. -/
theorem exampleWordsDecode : Obligations.ExampleWordsDecode := by
  refine ⟨?_, ?_, ?_, ?_, ?_, ?_, ?_, ?_⟩ <;> decide

end Sys2Proof.Encoding
end

section
/-! SUPPORT. The bits of a physical lane above the architectural lane of KPE-200 (10_state R23; 40_permutation R116). -/

namespace Sys2Proof.Machine

/-- In KPE-200 every lane is 0 above its low 8 bits (10_state R36, last line). -/
def LanesNarrow (c : Width) (S : Vector Lane 25) : Prop :=
  c = .kpe200 → ∀ i : Fin 25, S[i.val].extractLsb' 8 56 = 0

theorem extract_setWidth_byte_high (b : BitVec 8) : (b.setWidth 64).extractLsb' 8 56 = 0 := by
  refine BitVec.eq_of_getLsbD_eq fun i hi => ?_
  rw [BitVec.getLsbD_extractLsb', BitVec.getLsbD_setWidth, BitVec.getLsbD_of_ge b (8 + i) (by omega)]
  simp

/-- The permutation writes 0 above the low 8 bits, whatever stood there. -/
theorem lanesNarrow_permute (c : Width) (S : Vector Lane 25) : LanesNarrow c (permute c S) := by
  rintro rfl i
  rw [permute, Vector.getElem_map]
  exact extract_setWidth_byte_high _

/-- The permutation reads the low 8 bits of each lane alone. -/
theorem permute_kpe200_congr {S T : Vector Lane 25}
    (h : ∀ i : Fin 25, S[i.val].extractLsb' 0 8 = T[i.val].extractLsb' 0 8) :
    permute .kpe200 S = permute .kpe200 T := by
  have low : S.map (·.setWidth (laneBits .kpe200)) = T.map (·.setWidth (laneBits .kpe200)) := by
    refine Vector.ext fun i hi => ?_
    have := h ⟨i, hi⟩
    rw [← BitVec.setWidth_eq_extractLsb' (by omega), ← BitVec.setWidth_eq_extractLsb' (by omega)] at this
    rw [Vector.getElem_map, Vector.getElem_map]
    exact this
  rw [permute, permute, low]

theorem lanesNarrow_zero (c : Width) : LanesNarrow c (Vector.replicate 25 0) := by
  intro _ i
  rw [Vector.getElem_replicate]
  rfl

/-- A byte XORed into the state of KPE-200 goes to the low 8 bits of its lane. -/
theorem lanesNarrow_setXor {c : Width} {S : Vector Lane 25} (h : LanesNarrow c S) (i : Nat) (v : Byte) :
    LanesNarrow c (setXor c S i v) := by
  rintro rfl j
  have shift : 8 * (i % laneBytes .kpe200) = 0 := by rw [show laneBytes .kpe200 = 1 from rfl, Nat.mod_one]
  rw [getElem_setXor _ _ _ _ _ j.isLt, shift, BitVec.shiftLeft_zero]
  split
  · rw [BitVec.extractLsb'_xor, h rfl j, extract_setWidth_byte_high]
    rfl
  · exact h rfl j

theorem lanesNarrow_xorBlock {c : Width} {S : Vector Lane 25} (h : LanesNarrow c S) (blk : List Byte) :
    LanesNarrow c (xorBlock c S blk) := by
  rw [xorBlock_eq_xorFirst]
  generalize rateBytes c = n
  induction n with
  | zero => exact h
  | succ n ih =>
    rw [xorFirst_succ]
    exact lanesNarrow_setXor ih n _

end Sys2Proof.Machine
end

section
/-! PROOFS. The statement about the bits above the lanes of KPE-200. -/

namespace Sys2Proof.Permutation

open Sys2Proof.Machine

/-- Settles O40: the permutation works on the low 8 bits and widens with 0; XorBlock by induction on its steps. -/
theorem narrowLanesStayNarrow : Obligations.NarrowLanesStayNarrow :=
  ⟨fun S => lanesNarrow_permute .kpe200 S rfl, fun _ _ => permute_kpe200_congr,
    fun _ blk h => lanesNarrow_xorBlock (c := .kpe200) (fun _ => h) blk rfl⟩

end Sys2Proof.Permutation
end

section
/-! SUPPORT. The invariant of 10_state R36 by phase, and what keeps each of its parts. -/

namespace Sys2Proof.Machine

/-- The configuration is a supported one (10_state R36, second line). -/
def Engine.Configured (k : Engine) : Prop := validConfig k.cfgW k.cfgCap k.cfgOutlen = true

/-- `BUF` holds 0 from entry `BUFCNT` on (10_state R36). -/
def Engine.BufClean (k : Engine) : Prop := ∀ i : Fin 168, k.bufcnt.toNat ≤ i.val → k.buf[i.val] = 0

/-! ## The invariant, phase by phase -/

/-- In ABSORBING the invariant says this and no more. -/
theorem inv_iff_of_absorbing {k : Engine} (h : k.phase = .absorbing) :
    k.Inv ↔ k.Configured ∧ k.bufcnt.toNat < rateBytes k.cfgW ∧ k.cur = 0 ∧ k.outcnt = 0 ∧ k.BufClean ∧
      LanesNarrow k.cfgW k.lanes := by
  have hR := rateBytes_pos k.cfgW
  have hlt : k.bufcnt.toNat ≤ rateBytes k.cfgW - 1 ↔ k.bufcnt.toNat < rateBytes k.cfgW := by omega
  have hlen : k.cfgOutlen.toNat ≤ 65535 := by have := k.cfgOutlen.isLt; omega
  simp [Engine.Inv, Engine.Configured, Engine.BufClean, LanesNarrow, validConfig_iff, h, hlt, hlen, and_assoc]

/-- In SQUEEZING and FINALIZED the invariant says this and no more. -/
theorem inv_iff_of_output {k : Engine} (h : k.phase = .squeezing ∨ k.phase = .finalized) :
    k.Inv ↔ k.Configured ∧ k.bufcnt = 0 ∧ k.cur.toNat ≤ rateBytes k.cfgW ∧ k.outcnt.toNat ≤ k.cfgOutlen.toNat ∧
      (k.phase = .finalized ↔ k.outcnt = k.cfgOutlen) ∧ k.BufClean ∧ LanesNarrow k.cfgW k.lanes := by
  have hlen : k.cfgOutlen.toNat ≤ 65535 := by have := k.cfgOutlen.isLt; omega
  have hlt : k.outcnt.toNat < k.cfgOutlen.toNat ↔ k.outcnt.toNat ≤ k.cfgOutlen.toNat ∧ k.outcnt ≠ k.cfgOutlen := by
    rw [ne_eq, ← BitVec.toNat_inj]; omega
  rcases h with h | h <;>
    simp [Engine.Inv, Engine.Configured, Engine.BufClean, LanesNarrow, validConfig_iff, h, hlt, hlen, and_assoc]

/-- The reset engine meets the invariant: it is UNCONFIGURED, and everything is 0 (10_state R37). -/
theorem inv_reset : Engine.reset.Inv := by
  have hbuf : Engine.reset.BufClean := fun i _ => Vector.getElem_replicate i.isLt
  exact ⟨fun _ => ⟨rfl, rfl, rfl, rfl, rfl, rfl⟩, fun h => absurd rfl h, nofun, nofun, nofun, nofun, hbuf,
    lanesNarrow_zero .kpe200⟩

/-! ## The fields the invariant does not speak of -/

theorem inv_din_update {k : Engine} (h : k.Inv) (d : Word) : Engine.Inv { k with din := d } := h

theorem inv_noteError (e : ErrCode) {s : State} (h : s.engine.Inv) : (noteError e s).engine.Inv := h

/-! ## The accepted commands -/

theorem bufClean_zero {k : Engine} (h : k.buf = Vector.replicate 168 0) : k.BufClean := fun i _ => by
  rw [h, Vector.getElem_replicate]

theorem inv_initEngine {w : Width} {cap : BitVec 11} {len : BitVec 16} (h : validConfig w cap len = true) (k : Engine) :
    (initEngine w cap len k).Inv :=
  (inv_iff_of_absorbing rfl).2 ⟨h, rateBytes_pos w, rfl, rfl, bufClean_zero rfl, lanesNarrow_zero w⟩

/-- A byte below the end of the block stands at `BUFCNT`, and `BUF` is 0 behind it; the byte that fills the block leaves
the buffer empty and permuted lanes (43_commands R175). -/
theorem inv_absorbByte (v : Byte) {k : Engine} (hp : k.phase = .absorbing) (h : k.Inv) : (absorbByte v k).Inv := by
  obtain ⟨hcfg, hcnt, hcur, hout, hbuf, hlanes⟩ := (inv_iff_of_absorbing hp).1 h
  have hR := rateBytes_le k.cfgW
  rcases Nat.lt_or_ge (k.bufcnt.toNat + 1) (rateBytes k.cfgW) with hlt | hge
  · have ec : (BitVec.ofNat 8 (k.bufcnt.toNat + 1)).toNat = k.bufcnt.toNat + 1 := by
      rw [BitVec.toNat_ofNat]; omega
    rw [absorbByte_of_lt v hlt]
    refine (inv_iff_of_absorbing (by exact hp)).2 ⟨hcfg, ec.trans_lt hlt, hcur, hout, fun i hi => ?_, hlanes⟩
    have hi : k.bufcnt.toNat + 1 ≤ i.val := ec ▸ hi
    exact (Vector.getElem_setIfInBounds_ne _ (by omega)).trans (hbuf i (by omega))
  · rw [absorbByte_of_full v (by omega)]
    refine (inv_iff_of_absorbing (by exact hp)).2
      ⟨hcfg, rateBytes_pos k.cfgW, hcur, hout, fun i _ => ?_, lanesNarrow_permute k.cfgW _⟩
    simp only [clearBlock, Vector.getElem_ofFn]
    split
    · rfl
    · exact hbuf i (by omega)

theorem inv_absorbBytes (vs : List Byte) {k : Engine} (hp : k.phase = .absorbing) (h : k.Inv) :
    (absorbBytes vs k).Inv := by
  induction vs generalizing k with
  | nil => exact h
  | cons v vs ih => exact ih ((absorbByte_phase v k).trans hp) (inv_absorbByte v hp h)

theorem inv_finalizeEngine {k : Engine} (hp : k.phase = .absorbing) (h : k.Inv) : (finalizeEngine k).Inv := by
  obtain ⟨hcfg, -⟩ := (inv_iff_of_absorbing hp).1 h
  obtain ⟨-, hlen⟩ := (validConfig_iff _ _ _).1 hcfg
  refine (inv_iff_of_output (.inl rfl)).2 ⟨hcfg, rfl, Nat.zero_le _, Nat.zero_le _, ⟨nofun, fun h0 => ?_⟩,
    bufClean_zero rfl, lanesNarrow_permute k.cfgW _⟩
  have h0 : 0 = k.cfgOutlen.toNat := congrArg BitVec.toNat h0
  omega

theorem lanesNarrow_squeezeBytes (n : Nat) {k : Engine} (h : LanesNarrow k.cfgW k.lanes) :
    LanesNarrow k.cfgW (squeezeBytes n k).2.lanes := by
  induction n generalizing k with
  | zero => exact h
  | succ n ih =>
    have hbyte : LanesNarrow k.cfgW (squeezeByte k).2.lanes := by
      simp only [squeezeByte, refillBlock]
      split
      · exact lanesNarrow_permute k.cfgW k.lanes
      · exact h
    have := ih (k := (squeezeByte k).2) (by rwa [squeezeByte_cfgW])
    rwa [squeezeByte_cfgW] at this

/-- SQUEEZE moves the cursor within the rate and the count up to `CFG_OUTLEN`, and ends in FINALIZED just there. -/
theorem inv_squeezeEngine {nb : Nat} {k : Engine} (ha : Accepted (.squeeze nb) k) (h : k.Inv) :
    (squeezeEngine nb k).Inv := by
  obtain ⟨hp, hn⟩ := ha
  obtain ⟨hcfg, hcnt, hcur, -, -, hbuf, hlanes⟩ := (inv_iff_of_output (.inl hp)).1 h
  obtain ⟨-, hcur', -⟩ := squeezeBytes_stream nb hcur
  have hcount : (squeezeEngine nb k).outcnt.toNat ≤ k.cfgOutlen.toNat := by rwa [squeezeEngine_outcnt_toNat hn]
  have hlanes' := lanesNarrow_squeezeBytes nb hlanes
  have hphase : (squeezeEngine nb k).phase =
      if (squeezeEngine nb k).outcnt = k.cfgOutlen then .finalized else .squeezing := by
    rw [squeezeEngine_phase, hp]
  refine (inv_iff_of_output ?_).2 ⟨?_, ?_, ?_, ?_, ?_, ?_, ?_⟩
  · rw [hphase]; split <;> simp
  · simpa [Engine.Configured, squeezeEngine] using hcfg
  · simpa [squeezeEngine] using hcnt
  · simpa [squeezeEngine] using hcur'
  · rwa [squeezeEngine_cfgOutlen]
  · rw [hphase, squeezeEngine_cfgOutlen]; split <;> simp [*]
  · simpa [Engine.BufClean, squeezeEngine] using hbuf
  · simpa [squeezeEngine] using hlanes'

theorem inv_acceptedEngine {i : Instr} {k : Engine} (ha : Accepted i k) (h : k.Inv) : (acceptedEngine i k).Inv := by
  cases i with
  | init w cap len => exact inv_initEngine ha k
  | absorb nb => exact inv_absorbBytes _ ha h
  | finalize => exact inv_finalizeEngine ha h
  | squeeze nb => exact inv_squeezeEngine ha h

/-! ## Commands and writes -/

theorem exec_keeps_inv {i : Instr} {s t : State} (h : s.engine.Inv) (e : exec i s = .next t) : t.engine.Inv := by
  rcases exec_eq_next_cases e with ⟨ha, rfl⟩ | ⟨-, rfl⟩
  · exact inv_acceptedEngine ha h
  · exact inv_noteError _ h

theorem executeCommand_keeps_inv {cmd : Word} {s t : State} (h : s.engine.Inv) (e : executeCommand cmd s = .next t) :
    t.engine.Inv := by
  cases hd : decode cmd with
  | ok i => exact exec_keeps_inv h ((executeCommand_of_ok hd s).symm.trans e)
  | error _ =>
    cases (executeCommand_of_error hd s).symm.trans e
    exact inv_noteError _ h

theorem memWrite_keeps_inv {r : Reg} {v : Word} {s t : State} (h : s.engine.Inv) (e : memWrite r v s = .next t) :
    t.engine.Inv := by
  cases r with
  | cmd => exact executeCommand_keeps_inv h e
  | din => cases e; exact inv_din_update h v
  | dout | status | config | outcnt | reserved18 | reserved1C => cases e; exact h

end Sys2Proof.Machine
end

section
/-! PROOFS. The statements about the invariant of 10_state R36. -/

namespace Sys2Proof.Invariant

open Sys2Proof.Machine

/-- Settles O55: the reset engine is UNCONFIGURED with everything 0; the platform's part is about two numbers. -/
theorem invariantAtReset : Obligations.InvariantAtReset := ⟨inv_reset, rfl, Nat.le_refl 1⟩

/-- Settles O56: of all a step can do to the engine, a reset gives the invariant and every write of the block keeps it. -/
theorem stepKeepsInvariant : Obligations.StepKeepsInvariant := fun _ _ h e =>
  step_engine_induction inv_reset (fun _ _ _ _ => memWrite_keeps_inv) h e

end Sys2Proof.Invariant
end

section
/-! SUPPORT. ABSORB: the bytes it takes from `DIN` cut at the end of the block, and what it leaves of the buffer. -/

namespace Sys2Proof.Machine

/-! ## The bytes of `DIN` -/

/-- The bytes of an ABSORB that fills the block: those that complete it and those of the next one. -/
theorem dinBytes_add (m n : Nat) (v : Word) :
    dinBytes (m + n) v = dinBytes m v ++ (List.range n).map fun j => wordByte v (m + j) := by
  simp [dinBytes, List.range_add]

/-! ## The buffer -/

/-- A cleared block of a buffer that is 0 behind its bytes is an empty buffer. -/
theorem clearBlock_of_bufClean {k : Engine} (h : k.BufClean) (hc : k.bufcnt.toNat ≤ rateBytes k.cfgW) :
    clearBlock k.cfgW k.buf = Vector.replicate 168 0 := by
  refine Vector.ext fun i hi => ?_
  simp only [clearBlock, Vector.getElem_ofFn, Vector.getElem_replicate]
  split
  · rfl
  · exact h ⟨i, hi⟩ (by dsimp only; omega)

/-- ABSORB writes `BUF` below the rate alone, from a count below the rate (43_commands R175). -/
theorem absorbBytes_buf_above_rate (vs : List Byte) {k : Engine} (hc : k.bufcnt.toNat < rateBytes k.cfgW) {i : Nat}
    (hi : i < 168) (hr : rateBytes k.cfgW ≤ i) : (absorbBytes vs k).buf[i] = k.buf[i] := by
  have hR := rateBytes_le k.cfgW
  induction vs generalizing k with
  | nil => rfl
  | cons v vs ih =>
    have step : (absorbByte v k).bufcnt.toNat < rateBytes k.cfgW ∧ (absorbByte v k).buf[i] = k.buf[i] := by
      rcases Nat.lt_or_ge (k.bufcnt.toNat + 1) (rateBytes k.cfgW) with hlt | hge
      · rw [absorbByte_of_lt v hlt]
        exact ⟨by rw [BitVec.toNat_ofNat]; omega, Vector.getElem_setIfInBounds_ne _ (by omega)⟩
      · rw [absorbByte_of_full v (by omega)]
        refine ⟨rateBytes_pos k.cfgW, ?_⟩
        simp only [clearBlock, Vector.getElem_ofFn]
        exact if_neg (by omega)
    obtain ⟨hcnt, hbuf⟩ := step
    have hw := absorbByte_cfgW v k
    exact (ih (by rwa [hw]) (by rwa [hw]) (by rwa [hw])).trans hbuf

/-- Bytes `us` that fill the block and bytes `vs` that follow: one block is absorbed, and `vs` alone stands in the buffer
(43_commands R174, R175). -/
theorem absorbBytes_across (us vs : List Byte) {k : Engine} (h : k.Inv) (hp : k.phase = .absorbing)
    (hu : k.bufcnt.toNat + us.length = rateBytes k.cfgW) (hv : vs.length < rateBytes k.cfgW) :
    absorbBytes (us ++ vs) k = { k with
      lanes := absorbBlock k.cfgW k.lanes (k.buf.toList.take k.bufcnt.toNat ++ us)
      buf := Vector.ofFn fun i : Fin 168 => vs.getD i.val 0
      bufcnt := BitVec.ofNat 8 vs.length } := by
  obtain ⟨-, hcnt, -, -, hbuf, -⟩ := (inv_iff_of_absorbing hp).1 h
  rw [absorbBytes_append, absorbBytes_of_full us hu hcnt, clearBlock_of_bufClean hbuf hcnt.le,
    absorbBytes_blocks 0 vs _ rfl rfl (by omega) (by rwa [Nat.zero_add, Nat.one_mul])]
  rw [Nat.zero_mul, Nat.sub_zero]
  rfl

/-! ## What commands leave of the registers -/

/-- What the registers but STATUS show of an engine (20_memory R54 to R63). -/
theorem memRead_congr {k k' : Engine} {r : Reg} (hr : r ≠ .status) (hdin : k'.din = k.din)
    (hw : k'.cfgW = k.cfgW) (hcap : k'.cfgCap = k.cfgCap) (hlen : k'.cfgOutlen = k.cfgOutlen)
    (hdout : r = .dout → k'.dout = k.dout) (hout : r = .outcnt → k'.outcnt = k.outcnt) :
    memRead r k' = memRead r k := by
  cases r with
  | status => exact absurd rfl hr
  | cmd | reserved18 | reserved1C => rfl
  | din => exact hdin
  | dout => exact hdout rfl
  | config => simp only [memRead, configValue, hw, hcap, hlen]
  | outcnt => simp only [memRead, outcntValue, hout rfl]

/-- STATUS without its fields ERR and BUFCNT, and without its reserved bits (20_memory R59). -/
theorem status_congr {k k' : Engine} (hp : k'.phase = k.phase) (hc : k'.cur = k.cur) :
    (memRead .status k').extractLsb' 16 16 = (memRead .status k).extractLsb' 16 16 ∧
      (memRead .status k').extractLsb' 0 2 = (memRead .status k).extractLsb' 0 2 := by
  have upper (k : Engine) : ((memRead .status k).extractLsb' 16 16).toNat = k.cur.toNat := by
    have hph := (phaseCode k.phase).isLt
    have he := (errCode k.err).isLt
    have hb := k.bufcnt.isLt
    have hc := k.cur.isLt
    rw [toNat_extract_eq, status_toNat]
    omega
  obtain ⟨hphase, -⟩ := status_fields k
  obtain ⟨hphase', -⟩ := status_fields k'
  exact ⟨BitVec.eq_of_toNat_eq (by rw [upper, upper, hc]), by rw [hphase, hphase', hp]⟩

end Sys2Proof.Machine
end

section
/-! PROOFS. The statements about INIT, ABSORB and FINALIZE: the exact effect of an ABSORB, and what each leaves unchanged. -/

namespace Sys2Proof.Commands

open Sys2Proof.Machine

/-- Settles O15: the bytes of `DIN` are the bytes absorbed, and they stay within the block. -/
theorem absorbWithinBlock : Obligations.AbsorbWithinBlock := by
  intro nb s hp h1 h4 hlt
  rw [exec_absorb_of_absorbing hp, absorbBytes_of_lt _ (by rwa [dinBytes_length]), dinBytes_length]
  refine congrArg (fun b : Vector Byte 168 => Host.Outcome.next { s with engine := { s.engine with
    buf := b, bufcnt := BitVec.ofNat 8 (s.engine.bufcnt.toNat + nb) } }) (Vector.ext fun i hi => ?_)
  simp only [Vector.getElem_ofFn]
  split
  · exact dinBytes_getD nb _ _ (by omega)
  · rfl

/-- Settles O16: the bytes of `DIN` are cut where the block is full; the invariant says that the buffer is 0 behind its
bytes, so that a cleared block is an empty buffer. -/
theorem absorbAcrossBlock : Obligations.AbsorbAcrossBlock := by
  intro nb s hinv hp h1 h4 hge
  obtain ⟨-, hcnt, -⟩ := (inv_iff_of_absorbing hp).1 hinv
  have hR := rateBytes_ge_four s.engine.cfgW
  obtain ⟨n, hn⟩ := Nat.exists_eq_add_of_le hge
  obtain ⟨m, hm⟩ := Nat.exists_eq_add_of_le hcnt.le
  have hnb : nb = m + n := by omega
  have hsub : s.engine.bufcnt.toNat + nb - rateBytes s.engine.cfgW = n := by omega
  have hsub' : rateBytes s.engine.cfgW - s.engine.bufcnt.toNat = m := by omega
  rw [hsub, hsub', exec_absorb_of_absorbing hp, hnb, dinBytes_add,
    absorbBytes_across _ _ hinv hp (by rw [dinBytes_length, hm]) (by simp; omega), List.length_map, List.length_range]
  refine congrArg (fun b : Vector Byte 168 => Host.Outcome.next { s with engine := { s.engine with
    lanes := absorbBlock s.engine.cfgW s.engine.lanes
      (s.engine.buf.toList.take s.engine.bufcnt.toNat ++ dinBytes m s.engine.din)
    buf := b, bufcnt := BitVec.ofNat 8 n } }) (Vector.ext fun i hi => ?_)
  simp only [Vector.getElem_ofFn]
  split
  case isTrue h =>
    rw [List.getD_eq_getElem _ _ (by simpa using h), List.getElem_map, List.getElem_range]
    rfl
  case isFalse h => exact List.getD_eq_default _ _ (by simpa using h)

/-- Settles O17: an accepted ABSORB absorbs bytes, which leaves these fields; a failed one only records its error. -/
theorem absorbFrame : Obligations.AbsorbFrame := by
  intro nb s t h
  rcases exec_eq_next_cases h with ⟨hp, rfl⟩ | ⟨hp, rfl⟩
  · have hphase := absorbBytes_phase (dinBytes nb s.engine.din) s.engine
    have hw := absorbBytes_cfgW (dinBytes nb s.engine.din) s.engine
    have hcap := absorbBytes_cfgCap (dinBytes nb s.engine.din) s.engine
    have hlen := absorbBytes_cfgOutlen (dinBytes nb s.engine.din) s.engine
    have hcur := absorbBytes_cur (dinBytes nb s.engine.din) s.engine
    have hout := absorbBytes_outcnt (dinBytes nb s.engine.din) s.engine
    have hdin := absorbBytes_din (dinBytes nb s.engine.din) s.engine
    have hdout := absorbBytes_dout (dinBytes nb s.engine.din) s.engine
    have herr := absorbBytes_err (dinBytes nb s.engine.din) s.engine
    obtain ⟨hupper, hlower⟩ := status_congr hphase hcur
    exact ⟨hphase, hw, hcap, hlen, hcur, hout, hdin, hdout, fun _ => herr,
      fun hc i hr => absorbBytes_buf_above_rate _ hc i.isLt hr,
      fun r hr => memRead_congr hr hdin hw hcap hlen (fun _ => hdout) (fun _ => hout), hupper, hlower,
      rfl, rfl, rfl, rfl, rfl⟩
  · obtain ⟨hupper, hlower⟩ := status_congr (k := s.engine) (k' := (noteError .invalidState s).engine) rfl rfl
    exact ⟨rfl, rfl, rfl, rfl, rfl, rfl, rfl, rfl, fun ha => absurd ha hp, fun _ _ _ => rfl,
      fun r hr => memRead_congr hr rfl rfl rfl rfl (fun _ => rfl) (fun _ => rfl), hupper, hlower,
      rfl, rfl, rfl, rfl, rfl⟩

/-- Settles O13: the engine after a valid INIT is made of the command's fields and `DIN`. -/
theorem initForgetsTheOldHash : Obligations.InitForgetsTheOldHash := by
  intro w cap len s k hv hdin
  rw [exec_init_of_valid hv, exec_init_of_valid hv, initEngine, initEngine, hdin]

/-- Settles O14: an accepted INIT keeps `DIN`, a failed one everything but `ERR`. -/
theorem initFrame : Obligations.InitFrame := by
  intro w cap len s t h
  rcases exec_eq_next_cases h with ⟨-, rfl⟩ | ⟨-, rfl⟩ <;> exact ⟨rfl, rfl, rfl, rfl, rfl, rfl, rfl⟩

/-- Settles O19: an accepted FINALIZE writes the lanes, the buffer, the counters and the phase, a failed one `ERR`. -/
theorem finalizeFrame : Obligations.FinalizeFrame := by
  intro s t h
  rcases exec_eq_next_cases h with ⟨-, rfl⟩ | ⟨hp, rfl⟩
  · exact ⟨rfl, rfl, rfl, rfl, rfl, fun _ => rfl,
      fun r hr ho => memRead_congr hr rfl rfl rfl rfl (fun _ => rfl) (fun e => absurd e ho), rfl, rfl, rfl, rfl, rfl⟩
  · exact ⟨rfl, rfl, rfl, rfl, rfl, fun ha => absurd ha hp,
      fun r hr _ => memRead_congr hr rfl rfl rfl rfl (fun _ => rfl) (fun _ => rfl), rfl, rfl, rfl, rfl, rfl⟩

end Sys2Proof.Commands
end

section
/-! SUPPORT. SQUEEZE: the bytes it delivers on both sides of a block's end, and any number of SQUEEZEs one after the other. -/

namespace Sys2Proof.Machine

/-! ## The bytes of one SQUEEZE -/

/-- Bytes past the end of the current block: the rest of it, then bytes of the permuted state from 0 on (43_commands
R191). -/
theorem squeezeBytes_across {k : Engine} {m n : Nat} (hm : k.cur.toNat + m = rateBytes k.cfgW) (h0 : n ≠ 0)
    (hn : n ≤ rateBytes k.cfgW) :
    squeezeBytes (m + n) k =
      (((List.range m).map fun j => stateByte k.cfgW k.lanes (k.cur.toNat + j)) ++
          (List.range n).map fun j => stateByte k.cfgW (permute k.cfgW k.lanes) j,
        { k with lanes := permute k.cfgW k.lanes, cur := BitVec.ofNat 8 n }) := by
  have hR := rateBytes_le k.cfgW
  have hcur : (BitVec.ofNat 8 (k.cur.toNat + m)).toNat = rateBytes k.cfgW := by rw [BitVec.toNat_ofNat]; omega
  rw [squeezeBytes_add, squeezeBytes_of_le m hm.le, squeezeBytes_refill n h0 (by exact hcur),
    squeezeBytes_of_le n (by simpa using hn)]
  simp

/-- Byte `j` of a list made by index. -/
theorem getD_map_range (f : Nat → Byte) (n j : Nat) :
    ((List.range n).map f).getD j 0 = if j < n then f j else 0 := by
  by_cases h : j < n <;> simp [List.getD_eq_getElem?_getD, h]

/-- An accepted SQUEEZE in terms of its bytes, with the counts as numbers (43_commands R190, R192). -/
theorem exec_squeeze_eq {s : State} {nb : Nat} (hp : s.engine.phase = .squeezing)
    (hn : s.engine.outcnt.toNat + nb ≤ s.engine.cfgOutlen.toNat) :
    exec (.squeeze nb) s = .next { s with engine := { (squeezeBytes nb s.engine).2 with
      dout := packWord (squeezeBytes nb s.engine).1
      outcnt := BitVec.ofNat 16 (s.engine.outcnt.toNat + nb)
      phase := if s.engine.outcnt.toNat + nb = s.engine.cfgOutlen.toNat then .finalized else .squeezing } } := by
  rw [exec_squeeze_of_squeezing hp hn, squeezeEngine_eq hn, hp]

/-! ## SQUEEZEs one after the other -/

/-- The words in DOUT after SQUEEZEs of the given sizes, and the engine after the last one. -/
def squeezeAll : List Nat → Engine → List Word × Engine
  | [], k => ([], k)
  | n :: ns, k =>
    ((squeezeEngine n k).dout :: (squeezeAll ns (squeezeEngine n k)).1, (squeezeAll ns (squeezeEngine n k)).2)

/-- SQUEEZEs of the given sizes, 1 to 4, are all accepted: they stay within the configured length, and the first one, if
there is one, finds the phase SQUEEZING. -/
def SqueezesFit (sizes : List Nat) (k : Engine) : Prop :=
  (∀ n ∈ sizes, 1 ≤ n ∧ n ≤ 4) ∧ k.outcnt.toNat + sizes.sum ≤ k.cfgOutlen.toNat ∧
    (sizes ≠ [] → k.phase = .squeezing)

/-- The first SQUEEZE is accepted, and the others still fit after it: each has a byte to produce, so that the phase is
FINALIZED only behind the last one. -/
theorem squeezesFit_cons {n : Nat} {ns : List Nat} {k : Engine} (h : SqueezesFit (n :: ns) k) :
    (1 ≤ n ∧ n ≤ 4) ∧ Accepted (.squeeze n) k ∧ SqueezesFit ns (squeezeEngine n k) := by
  obtain ⟨hsizes, hsum, hphase⟩ := h
  have hp := hphase (List.cons_ne_nil n ns)
  rw [List.sum_cons] at hsum
  have hn : k.outcnt.toNat + n ≤ k.cfgOutlen.toNat := by omega
  refine ⟨hsizes n List.mem_cons_self, ⟨hp, hn⟩, fun m hm => hsizes m (List.mem_cons_of_mem n hm), ?_, fun hne => ?_⟩
  · rw [squeezeEngine_outcnt_toNat hn, squeezeEngine_cfgOutlen]
    omega
  · obtain ⟨m, ms, rfl⟩ := List.exists_cons_of_ne_nil hne
    have hm := hsizes m (by simp)
    rw [List.sum_cons] at hsum
    rw [squeezeEngine_eq hn]
    exact (if_neg (by omega)).trans hp

theorem runCommands_squeezes {sizes : List Nat} {s : State} (h : SqueezesFit sizes s.engine) :
    runCommands (sizes.map .squeeze) s = .next { s with engine := (squeezeAll sizes s.engine).2 } := by
  induction sizes generalizing s with
  | nil => rfl
  | cons n ns ih =>
    obtain ⟨-, ha, hrest⟩ := squeezesFit_cons h
    rw [List.map_cons, runCommands, exec_of_accepted ha, andThen_next]
    exact ih (s := { s with engine := squeezeEngine n s.engine }) hrest

/-- A read of DOUT behind each SQUEEZE gives the host its word (30_encoding R92). -/
theorem runLines_squeezeLines (h : Nat) {sizes : List Nat} {s : State} (hfit : SqueezesFit sizes s.engine) :
    runLines h (squeezeLines sizes) s = .next { s with
      engine := (squeezeAll sizes s.engine).2
      observed := s.observed ++ (squeezeAll sizes s.engine).1.map fun v => ⟨h, .dout, v⟩ } := by
  induction sizes generalizing s with
  | nil => simp [squeezeLines, runLines, squeezeAll]
  | cons n ns ih =>
    obtain ⟨⟨h1, h4⟩, ha, hrest⟩ := squeezesFit_cons hfit
    have hread (t : State) : serve h ((HostLine.rd .dout).access t.kpeBase) t = _ := serve_readOf_observed h .dout t
    have hlines : squeezeLines (n :: ns) = wrCmd (.squeeze n) :: .rd .dout :: squeezeLines ns := rfl
    rw [hlines, runLines_wrCmd (decode_encode_squeeze h1 h4), exec_of_accepted ha, andThen_next, runLines, hread,
      andThen_next, ih (by exact hrest), List.append_assoc]
    rfl

/-! ## What they leave -/

theorem squeezeAll_words_length (sizes : List Nat) (k : Engine) : (squeezeAll sizes k).1.length = sizes.length := by
  induction sizes generalizing k with
  | nil => rfl
  | cons n ns ih => exact congrArg (· + 1) (ih _)

theorem squeezeAll_err (sizes : List Nat) (k : Engine) : (squeezeAll sizes k).2.err = k.err := by
  induction sizes generalizing k with
  | nil => rfl
  | cons n ns ih => exact (ih _).trans (squeezeBytes_err n k)

theorem squeezeAll_outcnt {sizes : List Nat} {k : Engine} (h : SqueezesFit sizes k) :
    (squeezeAll sizes k).2.outcnt.toNat = k.outcnt.toNat + sizes.sum := by
  induction sizes generalizing k with
  | nil => rfl
  | cons n ns ih =>
    obtain ⟨-, ⟨-, hn⟩, hrest⟩ := squeezesFit_cons h
    rw [List.sum_cons, ← Nat.add_assoc, ← squeezeEngine_outcnt_toNat hn]
    exact ih hrest

/-- SQUEEZEs that produce the last configured byte end in FINALIZED (43_commands R192). -/
theorem squeezeAll_finalized {sizes : List Nat} {k : Engine} (h : SqueezesFit sizes k) (hne : sizes ≠ [])
    (hsum : k.outcnt.toNat + sizes.sum = k.cfgOutlen.toNat) : (squeezeAll sizes k).2.phase = .finalized := by
  induction sizes generalizing k with
  | nil => exact absurd rfl hne
  | cons n ns ih =>
    obtain ⟨-, ⟨-, hn⟩, hrest⟩ := squeezesFit_cons h
    rw [List.sum_cons, ← Nat.add_assoc, ← squeezeEngine_outcnt_toNat hn] at hsum
    by_cases hns : ns = []
    · subst hns
      exact (squeezeEngine_phase n k).trans (if_pos (BitVec.eq_of_toNat_eq hsum))
    · exact ih hrest hns (by rwa [squeezeEngine_cfgOutlen])

/-- The bytes in the words are the output stream from the cursor on, however they are split (43_commands R191, R194). -/
theorem collectBytes_squeezeAll {sizes : List Nat} {k : Engine} (h : SqueezesFit sizes k)
    (hc : k.cur.toNat ≤ rateBytes k.cfgW) :
    collectBytes sizes (squeezeAll sizes k).1 =
      (List.range sizes.sum).map fun n => outputByte k.cfgW k.lanes (k.cur.toNat + n) := by
  induction sizes generalizing k with
  | nil => rfl
  | cons n ns ih =>
    obtain ⟨⟨-, h4⟩, -, hrest⟩ := squeezesFit_cons h
    obtain ⟨hbytes, hcur, hstream⟩ := squeezeBytes_stream n hc
    have hw : (squeezeEngine n k).cfgW = k.cfgW := squeezeBytes_cfgW n k
    have first : dinBytes n (squeezeEngine n k).dout = (squeezeBytes n k).1 := by
      have := dinBytes_packWord (squeezeBytes n k).1 (by rwa [squeezeBytes_length])
      rwa [squeezeBytes_length] at this
    have rest := ih hrest (by rw [hw]; exact hcur)
    calc collectBytes (n :: ns) (squeezeAll (n :: ns) k).1
      _ = dinBytes n (squeezeEngine n k).dout ++ collectBytes ns (squeezeAll ns (squeezeEngine n k)).1 := rfl
      _ = (List.range (n + ns.sum)).map fun j => outputByte k.cfgW k.lanes (k.cur.toNat + j) := by
        rw [first, hbytes, rest, List.range_add, List.map_append, List.map_map, hw]
        refine congrArg _ (List.map_congr_left fun j _ => ?_)
        exact (hstream j).trans (by rw [Nat.add_assoc]; rfl)

end Sys2Proof.Machine
end

section
/-! PROOFS. The statements about SQUEEZE: the exact effect on both sides of a block's end, what it leaves unchanged, and the
output of any number of SQUEEZEs. -/

namespace Sys2Proof.Commands

open Sys2Proof.Machine

/-- Settles O20: the bytes are those of the current block. -/
theorem squeezeWithinBlock : Obligations.SqueezeWithinBlock := by
  intro nb s hp h1 h4 hn hc
  refine ⟨packWord (squeezeBytes nb s.engine).1, fun j hj => ?_, ?_⟩
  · refine (wordByte_packWord _ j hj).trans ?_
    rw [squeezeBytes_of_le nb hc, getD_map_range]
  · rw [exec_squeeze_eq hp hn, squeezeBytes_of_le nb hc]

/-- Settles O21: the bytes are cut at the end of the block, where the permutation runs once. -/
theorem squeezeAcrossBlock : Obligations.SqueezeAcrossBlock := by
  intro nb s hp h1 h4 hn hc hr
  have hR := rateBytes_ge_four s.engine.cfgW
  obtain ⟨m, hm⟩ := Nat.exists_eq_add_of_le hc
  obtain ⟨n, rfl⟩ : ∃ n, nb = m + n := ⟨nb - m, by omega⟩
  have hacross := squeezeBytes_across hm.symm (n := n) (by omega) (by omega)
  have hsub : rateBytes s.engine.cfgW - s.engine.cur.toNat = m := by omega
  refine ⟨packWord (squeezeBytes (m + n) s.engine).1, fun j hj => ?_, ?_⟩
  · refine (wordByte_packWord _ j hj).trans ?_
    rw [hacross, hsub]
    by_cases hjm : j < m
    · rw [List.getD_append _ _ _ _ (by simpa using hjm), getD_map_range, if_pos hjm, if_pos hjm]
    · have hj' : s.engine.cur.toNat + j - rateBytes s.engine.cfgW = j - m := by omega
      have hnb : j - m < n ↔ j < m + n := by omega
      rw [List.getD_append_right _ _ _ _ (by simpa using hjm), List.length_map, List.length_range, getD_map_range,
        if_neg hjm, hj']
      simp only [hnb]
  · have hcur : s.engine.cur.toNat + (m + n) - rateBytes s.engine.cfgW = n := by omega
    rw [exec_squeeze_eq hp hn, hacross, hcur]

/-- Settles O22: an accepted SQUEEZE moves bytes out of the lanes, a failed one only records its error. -/
theorem squeezeFrame : Obligations.SqueezeFrame := by
  intro nb s t h
  rcases exec_eq_next_cases h with ⟨ha, rfl⟩ | ⟨hp, rfl⟩
  · have hw := squeezeBytes_cfgW nb s.engine
    have hcap := squeezeBytes_cfgCap nb s.engine
    have hlen := squeezeBytes_cfgOutlen nb s.engine
    have hdin := squeezeBytes_din nb s.engine
    refine ⟨hw, hcap, hlen, squeezeBytes_buf nb s.engine, squeezeBytes_bufcnt nb s.engine, hdin,
      fun _ _ => squeezeBytes_err nb s.engine,
      fun r hr hd ho => memRead_congr hr hdin hw hcap hlen (fun e => absurd e hd) (fun e => absurd e ho),
      fun hno => ?_, rfl, rfl, rfl, rfl, rfl⟩
    obtain ⟨hp, hn⟩ := ha
    exact absurd hno (by simp [hp, hn])
  · exact ⟨rfl, rfl, rfl, rfl, rfl, rfl, fun hp' hn => absurd ⟨hp', hn⟩ hp,
      fun r hr _ _ => memRead_congr hr rfl rfl rfl rfl (fun _ => rfl) (fun _ => rfl),
      fun _ => ⟨rfl, rfl, rfl, rfl⟩, rfl, rfl, rfl, rfl, rfl⟩

/-- Settles O23: by induction on the sizes; behind each SQUEEZE the stream goes on where it stopped. -/
theorem outputIndependentOfSplit : Obligations.OutputIndependentOfSplit := by
  intro h sizes s hc hp hsizes hsum
  have hfit : SqueezesFit sizes s.engine := ⟨hsizes, hsum, fun _ => hp⟩
  exact ⟨_, _, runLines_squeezeLines h hfit, squeezeAll_words_length _ _, rfl, collectBytes_squeezeAll hfit hc,
    squeezeAll_outcnt hfit, squeezeAll_err _ _⟩

/-- Settles O24: the SQUEEZEs fit, the last one ends in FINALIZED, and there no SQUEEZE is accepted. -/
theorem fixedOutputLength : Obligations.FixedOutputLength := by
  intro sizes s hp h0 hsizes hsum hlen
  have hcount : s.engine.outcnt.toNat + sizes.sum = s.engine.cfgOutlen.toNat := by
    rw [h0, hsum]; exact Nat.zero_add _
  have hfit : SqueezesFit sizes s.engine := ⟨hsizes, hcount.le, fun _ => hp⟩
  have hne : sizes ≠ [] := by
    rintro rfl
    rw [List.sum_nil] at hsum
    omega
  have hfin := squeezeAll_finalized hfit hne hcount
  refine ⟨_, runCommands_squeezes hfit, hfin, BitVec.eq_of_toNat_eq ?_, squeezeAll_err _ _, fun nb => ?_⟩
  · rw [squeezeAll_outcnt hfit, hcount]
  · exact exec_squeeze_of_not_squeezing (by simp [hfin]) nb

end Sys2Proof.Commands
end

section
/-! PROOFS. The statements about what hosts cannot see: the lanes and the buffer, and the capacity through SQUEEZE. -/

namespace Sys2Proof.Sponge

open Sys2Proof.Machine

/-- Settles O50: each register is made of fields other than these two. -/
theorem readsHideLanesAndBuffer : Obligations.ReadsHideLanesAndBuffer := by
  intro r k S B
  cases r <;> rfl

/-- Settles O51: the bytes of a SQUEEZE within the block are rate bytes, so that the engines after it differ in their lanes
alone, and no register shows those. -/
theorem capacityIsNotOutput : Obligations.CapacityIsNotOutput := by
  intro nb s S hp h1 h4 hc hn hrate
  have hS := squeezeBytes_of_le nb (k := { s.engine with lanes := S }) hc
  have bytes : (squeezeBytes nb { s.engine with lanes := S }).1 = (squeezeBytes nb s.engine).1 := by
    rw [hS, squeezeBytes_of_le nb hc]
    refine List.map_congr_left fun j hj => hrate _ ?_
    have hj := List.mem_range.1 hj
    dsimp only
    omega
  refine ⟨_, _, exec_squeeze_eq hp hn, exec_squeeze_eq (s := { s with engine := { s.engine with lanes := S } }) hp hn,
    fun r => ?_⟩
  rw [bytes, hS, squeezeBytes_of_le nb hc]
  exact (readsHideLanesAndBuffer r _ S s.engine.buf).symm

end Sys2Proof.Sponge
end

section
/-! SUPPORT. Steps by turn: a host's turn is its access, and a reset turn during a command ends the held accesses
(20_memory R65, R68; 70_reset R261). -/

namespace Sys2Proof.Machine

/-! ## A host's turn -/

/-- A host's turn performs its oldest pending access on the state without that access and that turn. -/
theorem step_host {s : State} {h : Nat} {a : Access} {hosts : List (List Access)} {rest : List Turn}
    (hsch : s.schedule = .host h :: rest) (htake : takeAccess h s.hosts = some (a, hosts)) :
    step s = serve h a { s with hosts := hosts, schedule := rest } := by
  simp only [step_cons hsch, takeTurn, htake]

/-- A host's turn that writes CMD runs the word (20_memory R55). -/
theorem step_host_cmd {s : State} {h : Nat} {cmd : Word} {hosts : List (List Access)} {rest : List Turn}
    (hsch : s.schedule = .host h :: rest) (htake : takeAccess h s.hosts = some (writeOf s.kpeBase .cmd cmd, hosts)) :
    step s = executeCommand cmd { s with hosts := hosts, schedule := rest } :=
  (step_host hsch htake).trans (serve_writeOf_cmd h cmd { s with hosts := hosts, schedule := rest })

theorem decode_of_decodeTableWord {w : Nat} {i : Instr} (h : decodeTableWord 32 w = some i) :
    decode (BitVec.ofNat 32 (w % 2 ^ 32)) = .ok i := by
  unfold decodeTableWord at h
  split at h
  · next hd => rw [hd, Option.some.inj h]
  · cases h

/-! ## Which accesses have a step (20_memory R52, R53) -/

theorem not_outside_block {base n : Nat} (h1 : base ≤ n) (h2 : n < base + 32) : ¬(n < base ∨ base + 32 ≤ n) := by
  omega

theorem target_of_width_ne {base : Nat} {a : Access} (h1 : base ≤ a.addr) (h2 : a.addr < base + 32)
    (hw : a.width ≠ .bits32) : target base a = .error .accessWidth := by
  rw [target, if_neg (not_outside_block h1 h2), if_pos hw]

theorem target_of_misaligned {base : Nat} {a : Access} (h1 : base ≤ a.addr) (h2 : a.addr < base + 32)
    (hw : a.width = .bits32) (hal : (a.addr - base) % 4 ≠ 0) : target base a = .error .accessMisaligned := by
  have hr := (regAt_eq_none_iff (n := a.addr - base) (by omega)).2 hal
  rw [target, if_neg (not_outside_block h1 h2), if_neg (not_not_intro hw), hr]

theorem target_of_aligned {base : Nat} {a : Access} (h1 : base ≤ a.addr) (h2 : a.addr < base + 32)
    (hw : a.width = .bits32) (hal : (a.addr - base) % 4 = 0) : ∃ r, target base a = .ok r := by
  cases hr : regAt (a.addr - base) with
  | some r => exact ⟨r, by rw [target, if_neg (not_outside_block h1 h2), if_neg (not_not_intro hw), hr]⟩
  | none => exact absurd hal ((regAt_eq_none_iff (by omega)).1 hr)

theorem serve_of_target_error {a : Access} {s : State} {e : Refusal} (ht : target s.kpeBase a = .error e) (h : Nat) :
    serve h a s = .refused e := by
  simp only [serve, ht]

/-- An access that reaches a register completes (20_memory R54). -/
theorem serve_of_target_ok {a : Access} {s : State} {r : Reg} (ht : target s.kpeBase a = .ok r) (h : Nat) :
    ∃ t, serve h a s = .next t := by
  rcases serve_cases h a s with ⟨e, he, -⟩ | ⟨_, -, -, hs⟩ | ⟨_, _, _, -, -, hs, hw⟩
  · cases ht.symm.trans he
  · exact ⟨_, hs⟩
  · exact ⟨_, hs.trans hw⟩

/-! ## Runs of hosts' turns (20_memory R67, R68) -/

theorem takeAll_cons {h : Nat} {hs : List Nat} {qs qs' : List (List Access)} {acc : List (Nat × Access)}
    (e : takeAll (h :: hs) qs = some (acc, qs')) :
    ∃ a qs₁ acc', takeAccess h qs = some (a, qs₁) ∧ takeAll hs qs₁ = some (acc', qs') ∧ acc = (h, a) :: acc' := by
  unfold takeAll at e
  split at e
  · cases e
  · next a qs₁ htake =>
    obtain ⟨⟨acc', qs₂⟩, hrest, heq⟩ := Option.map_eq_some_iff.1 e
    cases heq
    exact ⟨a, qs₁, acc', htake, hrest, rfl⟩

/-- The accesses taken of each host are the head of its queue, in order. -/
theorem takeAll_order {hs : List Nat} {qs qs' : List (List Access)} {acc : List (Nat × Access)}
    (e : takeAll hs qs = some (acc, qs')) (g : Nat) :
    (acc.filter fun p => p.1 = g).map Prod.snd ++ qs'.getD g [] = qs.getD g [] := by
  induction hs generalizing qs acc with
  | nil => cases e; rfl
  | cons h hs ih =>
    obtain ⟨a, qs₁, acc', htake, hrest, rfl⟩ := takeAll_cons e
    rw [takeAccess_order htake g, ← ih hrest]
    by_cases hg : h = g <;> simp [hg]

/-- Each turn of a run is the access it takes, and no access looks at the queues or the schedule. -/
theorem run_eq_serveAll {hs : List Nat} {s : State} {acc : List (Nat × Access)} {qs : List (List Access)}
    {rest : List Turn} (hsch : s.schedule = hs.map .host ++ rest) (e : takeAll hs s.hosts = some (acc, qs)) :
    Host.Core.run core hs.length s = serveAll acc { s with hosts := qs, schedule := rest } := by
  induction hs generalizing s acc with
  | nil =>
    cases e
    rw [List.map_nil, List.nil_append] at hsch
    subst hsch
    rfl
  | cons h hs ih =>
    obtain ⟨a, qs₁, acc', htake, hrest, rfl⟩ := takeAll_cons e
    have hstep := step_host hsch htake
    rw [List.length_cons, serveAll]
    rcases serve_queues h a { s with hosts := qs₁, schedule := hs.map .host ++ rest } qs rest with
      ⟨r, he, he'⟩ | ⟨t, ht, hhosts, hschedule, -, ht'⟩
    · rw [run_succ_of_refused (hstep.trans he)]
      exact (congrArg (andThen · (serveAll acc')) he').symm
    · rw [run_succ_of_next (hstep.trans ht), ih hschedule (by rwa [hhosts])]
      exact (congrArg (andThen · (serveAll acc')) ht').symm

/-! ## What a host's turn does to the phase -/

/-- No accepted command ends in UNCONFIGURED (43_commands R171). -/
theorem acceptedEngine_phase_ne_unconfigured {i : Instr} {k : Engine} (ha : Accepted i k) :
    (acceptedEngine i k).phase ≠ .unconfigured := by
  cases i with
  | init w cap len => exact nofun
  | absorb nb =>
    rw [acceptedEngine, absorbBytes_phase, ha]
    exact nofun
  | finalize => exact nofun
  | squeeze nb =>
    rw [acceptedEngine, squeezeEngine_phase, ha.1]
    split <;> exact nofun

theorem executeCommand_unconfigured {cmd : Word} {s t : State} (h : executeCommand cmd s = .next t)
    (ht : t.engine.phase = .unconfigured) : s.engine.phase = .unconfigured := by
  rcases executeCommand_cases cmd s with ⟨i, hd, ha⟩ | ⟨e, -, he⟩
  · cases ((executeCommand_of_ok hd s).trans (exec_of_accepted ha)).symm.trans h
    exact absurd ht (acceptedEngine_phase_ne_unconfigured ha)
  · cases he.symm.trans h
    exact ht

theorem memWrite_unconfigured {r : Reg} {v : Word} {s t : State} (h : memWrite r v s = .next t)
    (ht : t.engine.phase = .unconfigured) : s.engine.phase = .unconfigured := by
  cases r with
  | cmd => exact executeCommand_unconfigured h ht
  | din | dout | status | config | outcnt | reserved18 | reserved1C => cases h; exact ht

theorem takeTurn_host_unconfigured {g : Nat} {s t : State} (h : takeTurn (.host g) s = .next t)
    (ht : t.engine.phase = .unconfigured) : s.engine.phase = .unconfigured := by
  simp only [takeTurn] at h
  split at h
  · cases h
    exact ht
  · rcases serve_cases g _ _ with ⟨e, -, he⟩ | ⟨r, -, -, he⟩ | ⟨r, v, k, -, -, he, -⟩ <;> rw [he] at h
    · cases h
    · cases h
      exact ht
    · have hphase := memWrite_unconfigured h ht
      exact hphase

/-! ## What no step changes (00_scope R13, R18) -/

/-- The platform's parameters are the same, and what hosts have read has at most grown. -/
def Extends (s t : State) : Prop :=
  t.kpeBase = s.kpeBase ∧ t.hosts.length = s.hosts.length ∧ ∃ new, t.observed = s.observed ++ new

theorem Extends.refl (s : State) : Extends s s := ⟨rfl, rfl, [], (List.append_nil _).symm⟩

theorem Extends.trans {s t u : State} (h : Extends s t) (h' : Extends t u) : Extends s u := by
  obtain ⟨hb, hl, new, ho⟩ := h
  obtain ⟨hb', hl', new', ho'⟩ := h'
  exact ⟨hb'.trans hb, hl'.trans hl, new ++ new', by rw [ho', ho, List.append_assoc]⟩

/-- What leaves the base, the hosts and the list of values alone extends the state. -/
theorem extends_of_eq {s t : State} (hb : t.kpeBase = s.kpeBase) (hl : t.hosts.length = s.hosts.length)
    (ho : t.observed = s.observed) : Extends s t := ⟨hb, hl, [], ho.trans (List.append_nil _).symm⟩

theorem extends_observe (h : Nat) (r : Reg) (v : Word) (s : State) : Extends s (observe h r v s) := ⟨rfl, rfl, _, rfl⟩

theorem memWrite_extends {r : Reg} {v : Word} {s t : State} (h : memWrite r v s = .next t) : Extends s t := by
  obtain ⟨k, hk⟩ := memWrite_writes_engine r v s
  cases hk.symm.trans h
  exact extends_of_eq rfl rfl rfl

theorem serve_extends {h : Nat} {a : Access} {s t : State} (e : serve h a s = .next t) : Extends s t := by
  rcases serve_cases h a s with ⟨_, -, he⟩ | ⟨r, -, -, he⟩ | ⟨r, v, k, -, -, he, -⟩ <;> rw [he] at e
  · cases e
  · cases e
    exact extends_observe h r _ _
  · exact memWrite_extends e

theorem serveHeld_extends {h : Nat} {a : Access} {s t : State} (e : serveHeld h a s = .next t) : Extends s t := by
  have hcount : Extends s { s with freeCount := s.freeCount + 1 } := extends_of_eq rfl rfl rfl
  rcases serveHeld_cases h a s with ⟨_, he⟩ | ⟨r, v, he⟩ | ⟨r, v, he⟩ | he <;> rw [he] at e
  · cases e
  · cases e
    exact hcount.trans (extends_observe h r v _)
  · exact hcount.trans (memWrite_extends e)
  · cases e
    exact hcount

theorem serveAllHeld_extends {l : List Nat} {s t : State} (e : serveAllHeld l s = .next t) : Extends s t := by
  induction l generalizing s with
  | nil =>
    cases e
    exact Extends.refl _
  | cons g l ih =>
    unfold serveAllHeld at e
    split at e
    · exact ih e
    · next a hosts htake =>
      obtain ⟨u, hu, ht⟩ := andThen_eq_next e
      have htaken : Extends s { s with hosts := hosts } := extends_of_eq rfl (takeAccess_length htake) rfl
      exact htaken.trans ((serveHeld_extends hu).trans (ih ht))

theorem takeTurn_extends {turn : Turn} {s t : State} (e : takeTurn turn s = .next t) : Extends s t := by
  cases turn with
  | host g =>
    simp only [takeTurn] at e
    split at e
    · cases e
      exact Extends.refl s
    · next a hosts htake =>
      have htaken : Extends s { s with hosts := hosts } := extends_of_eq rfl (takeAccess_length htake) rfl
      exact htaken.trans (serve_extends e)
  | reset =>
    cases e
    exact extends_of_eq rfl rfl rfl
  | resetDuring g l =>
    simp only [takeTurn] at e
    split at e
    · cases e
      exact extends_of_eq rfl rfl rfl
    · next a hosts htake =>
      split at e
      · have hreset : Extends s (resetBlock { s with hosts := hosts }) :=
          extends_of_eq rfl (takeAccess_length htake) rfl
        exact hreset.trans (serveAllHeld_extends e)
      · cases e
        exact extends_of_eq rfl rfl rfl

theorem step_extends {s t : State} (e : step s = .next t) : Extends s t := by
  cases hsch : s.schedule with
  | nil =>
    cases (step_nil hsch).symm.trans e
    exact Extends.refl s
  | cons turn rest =>
    have hturn : Extends s { s with schedule := rest } := extends_of_eq rfl rfl rfl
    exact hturn.trans (takeTurn_extends ((step_cons hsch).symm.trans e))

/-! ## A reset during a command (70_reset R261) -/

theorem andThen_next_right {σ φ ρ : Type} (o : Host.Outcome σ φ ρ) : andThen o .next = o := by
  cases o <;> rfl

theorem isCommandWrite_writeOf (base : Nat) (cmd : Word) : isCommandWrite base (writeOf base .cmd cmd) = true := by
  unfold isCommandWrite
  rw [target_writeOf]
  rfl

/-- A reset turn while a CMD write runs: the reset engine, and then the held accesses end. -/
theorem step_resetDuring {s : State} {h : Nat} {cmd : Word} {hosts : List (List Access)} {held : List Nat}
    {rest : List Turn} (hsch : s.schedule = .resetDuring h held :: rest)
    (htake : takeAccess h s.hosts = some (writeOf s.kpeBase .cmd cmd, hosts)) :
    step s = serveAllHeld held { s with engine := Engine.reset, hosts := hosts, schedule := rest } := by
  simp only [step_cons hsch, takeTurn, htake, isCommandWrite_writeOf, if_true]
  rfl

theorem serveAllHeld_single {g : Nat} {a : Access} {s : State} {hosts : List (List Access)}
    (htake : takeAccess g s.hosts = some (a, hosts)) :
    serveAllHeld [g] s = serveHeld g a { s with hosts := hosts } := by
  simp only [serveAllHeld, htake]
  exact andThen_next_right _

theorem serveHeld_readOf (g : Nat) (r : Reg) (s : State) :
    serveHeld g (readOf s.kpeBase r) s =
      .next (observe g r (Config.heldReadValue s.freeCount) { s with freeCount := s.freeCount + 1 }) := by
  unfold serveHeld
  rw [target_readOf]
  rfl

/-- A held write is performed or dropped (93 U3). -/
theorem serveHeld_writeOf (g : Nat) (r : Reg) (v : Word) (s : State) :
    serveHeld g (writeOf s.kpeBase r v) s = .next { s with freeCount := s.freeCount + 1 } ∨
      serveHeld g (writeOf s.kpeBase r v) s = memWrite r v { s with freeCount := s.freeCount + 1 } := by
  have e : serveHeld g (writeOf s.kpeBase r v) s =
      if Config.heldWritePerformed s.freeCount then memWrite r v { s with freeCount := s.freeCount + 1 }
      else .next { s with freeCount := s.freeCount + 1 } := by
    unfold serveHeld
    rw [target_writeOf]
    rfl
  rw [e]
  split
  · exact .inr rfl
  · exact .inl rfl

end Sys2Proof.Machine
end

section
/-! PROOFS. The statements about steps: the command a step runs, the accesses that have one, runs of hosts' turns, and what
no step changes. -/

namespace Sys2Proof.Bus

open Sys2Proof.Machine

/-- Settles O9: the access of the turn is a CMD write, which runs its word. -/
theorem stepRunsTheDecodedCommand : Obligations.StepRunsTheDecodedCommand := fun _ _ _ _ _ hsch htake =>
  ⟨fun _ hd => (step_host_cmd hsch htake).trans (executeCommand_of_ok hd _),
    fun _ hd => (step_host_cmd hsch htake).trans (executeCommand_of_error hd _)⟩

/-- Settles O10: the placed access is host 0's oldest one, and the next turn is host 0's. -/
theorem placedWordRunsNext : Obligations.PlacedWordRunsNext := fun s w _ h =>
  (step_host_cmd (s := s.withFetchWord 32 w) rfl (takeAccess_pushAccess _ s.hosts)).trans
    (executeCommand_of_ok (decode_of_decodeTableWord h) _)

/-- Settles O48: the width is checked before the alignment, and every aligned offset of the block has a register. -/
theorem onlyAlignedWordAccessesStep : Obligations.OnlyAlignedWordAccessesStep := by
  intro s h a hosts rest hsch htake h1 h2
  have hstep := step_host hsch htake
  refine ⟨fun hw => hstep.trans (serve_of_target_error (by exact target_of_width_ne h1 h2 hw) h),
    fun hw hal => hstep.trans (serve_of_target_error (by exact target_of_misaligned h1 h2 hw hal) h), fun hw hal => ?_⟩
  obtain ⟨r, hr⟩ := target_of_aligned h1 h2 hw hal
  rw [hstep]
  exact serve_of_target_ok (s := { s with hosts := hosts, schedule := rest }) hr h

/-- Settles O49: by induction on the turns. -/
theorem runIsAnInterleaving : Obligations.RunIsAnInterleaving := fun _ _ _ _ _ hsch e =>
  ⟨run_eq_serveAll hsch e, takeAll_order e⟩

/-- Settles O52: every part of a turn extends the state, held accesses included. -/
theorem platformParametersStay : Obligations.PlatformParametersStay := fun _ _ => step_extends

end Sys2Proof.Bus
end

section
/-! PROOFS. The statements about reset turns: the only way to UNCONFIGURED, and a reset during a command. -/

namespace Sys2Proof.Reset

open Sys2Proof.Machine

/-- Settles O30: a host's turn writes the block at most, and no write ends in UNCONFIGURED from another phase. -/
theorem onlyResetUnconfigures : Obligations.OnlyResetUnconfigures := by
  intro s t h ht hs
  cases hsch : s.schedule with
  | nil =>
    cases (step_nil hsch).symm.trans h
    exact absurd ht hs
  | cons turn rest =>
    cases turn with
    | reset => exact .inl ⟨rest, rfl⟩
    | resetDuring g held => exact .inr ⟨g, held, rest, rfl⟩
    | host g => exact absurd (takeTurn_host_unconfigured ((step_cons hsch).symm.trans h) ht) hs

/-- Settles O54: the held access finds the reset state; a read draws its value, a write the choice. -/
theorem resetDuringCommand : Obligations.ResetDuringCommand := by
  refine fun s h cmd hosts rest htake => ⟨fun hsch => step_resetDuring hsch htake, fun g r hosts' hsch => ?_⟩
  have hstep := step_resetDuring hsch htake
  refine ⟨fun hread => ?_, fun v hwrite => ?_⟩
  · rw [hstep, serveAllHeld_single hread]
    exact ⟨_, serveHeld_readOf g r _⟩
  · rw [hstep, serveAllHeld_single hwrite]
    exact serveHeld_writeOf g r v _

end Sys2Proof.Reset
end

section
/-! SUPPORT. The permutation as its rounds, and the lanes of pi (40_permutation R102, R107, R114). -/

namespace Sys2Proof.Machine

/-! ## Pi -/

/-- Pi moves the lane at `(x,y)` to `(y, 2x + 3y)`: reading back, `y + 3·(2x + 3y)` is `x` mod 5 (40_permutation R107). -/
theorem lane_pi {w : Nat} (A : Grid w) (x y : Fin 5) : lane (pi A) y (2 * x + 3 * y) = lane A x y := by
  have back : ∀ x y : Fin 5, y + 3 * (2 * x + 3 * y) = x := by decide
  rw [pi, lane_ofLanes, back]

/-- The flat table of 40_permutation R107: where the lane of each index goes. -/
def piTable : List Nat := [0, 10, 20, 5, 15, 16, 1, 11, 21, 6, 7, 17, 2, 12, 22, 23, 8, 18, 3, 13, 14, 24, 9, 19, 4]

/-- The flat table is the rule on the indices of the lanes. -/
theorem piTable_getD (x y : Fin 5) :
    piTable.getD (5 * y.val + x.val) 0 = 5 * (2 * x + 3 * y : Fin 5).val + y.val := by
  revert x y
  decide

theorem pi_toList_getD {w : Nat} (A : Grid w) (i : Fin 25) :
    (pi A).toList.getD (piTable.getD i.val 0) 0 = A[i.val] := by
  have coords : ∀ i : Fin 25, ∃ x y : Fin 5, i.val = 5 * y.val + x.val := fun i =>
    ⟨⟨i.val % 5, by omega⟩, ⟨i.val / 5, by omega⟩, by dsimp only; omega⟩
  obtain ⟨x, y, hi⟩ := coords i
  simp only [hi, piTable_getD]
  exact (lane_pi A x y).trans (lane_eq_getElem A x y)

theorem pi_injective {w : Nat} {A B : Grid w} (h : pi A = pi B) : A = B :=
  grid_ext fun x y => by rw [← lane_pi A, ← lane_pi B, h]

/-- Rho and pi together: the offset is that of the lane's position before pi moves it (40_permutation R108). -/
theorem lane_pi_rho (c : Width) (A : Grid (laneBits c)) (x y : Fin 5) :
    lane (pi (rho c A)) y (2 * x + 3 * y) = (lane A x y).rotateLeft (rhoOffset c x y) := by
  rw [lane_pi, lane_rho]

/-! ## The rounds -/

/-- The grid after the rounds 0 to `n − 1` (40_permutation R114). -/
def afterRounds (c : Width) (A : Grid (laneBits c)) (n : Nat) : Grid (laneBits c) := (List.range n).foldl (round c) A

theorem afterRounds_zero (c : Width) (A : Grid (laneBits c)) : afterRounds c A 0 = A := rfl

theorem afterRounds_succ (c : Width) (A : Grid (laneBits c)) (n : Nat) :
    afterRounds c A (n + 1) = iota c (chi (pi (rho c (theta (afterRounds c A n))))) n := by
  rw [afterRounds, List.range_succ, List.foldl_append]
  rfl

theorem keccakF_eq_afterRounds (c : Width) (A : Grid (laneBits c)) : keccakF c A = afterRounds c A (rounds c) := rfl

/-! ## The physical lanes -/

/-- On lanes that are 8 bits in 64, the permutation of KPE-200 is KeccakF of the 8 bits. -/
theorem permute_kpe200_of_widened (A : Grid (laneBits .kpe200)) :
    permute .kpe200 (A.map (·.setWidth 64)) = (keccakF .kpe200 A).map (·.setWidth 64) := by
  have low : (A.map (·.setWidth 64)).map (·.setWidth (laneBits .kpe200)) = A := by
    refine Vector.ext fun i hi => ?_
    rw [Vector.getElem_map, Vector.getElem_map, BitVec.setWidth_setWidth_of_le _ (by decide), BitVec.setWidth_eq]
  rw [permute, low]

/-- In KPE-1600 the architectural lane is the physical one. -/
theorem permute_kpe1600_eq (S : Vector Lane 25) : permute .kpe1600 S = keccakF .kpe1600 S := by
  have same (T : Vector (BitVec 64) 25) : T.map (·.setWidth 64) = T := by
    refine Vector.ext fun i hi => ?_
    rw [Vector.getElem_map, BitVec.setWidth_eq]
  exact (same _).trans (congrArg (keccakF .kpe1600) (same S))

/-! ## The zero state -/

/-- R114's example: the 25 lanes of the permuted zero state of KPE-200. -/
theorem permute_kpe200_zero :
    permute .kpe200 (Vector.replicate 25 0) =
      #v[0x3c, 0x28, 0x26, 0x84, 0x1c, 0xb3, 0x5c, 0x17, 0x1e, 0xaa, 0xe9, 0xb8, 0x11, 0x13, 0x4c,
        0xea, 0xa3, 0x85, 0x2c, 0x69, 0xd2, 0xc5, 0xab, 0xaf, 0xea] := by
  decide +kernel

/-- The zero state is no fixed point: lane 0 does not stay 0 at either width. -/
theorem permute_zero_ne_zero (c : Width) : permute c (Vector.replicate 25 0) ≠ Vector.replicate 25 0 := by
  have lane0 : ∀ c, (permute c (Vector.replicate 25 0))[0] ≠ 0 := by
    intro c
    cases c <;> decide +kernel
  intro h
  exact lane0 c (by rw [h, Vector.getElem_replicate])

end Sys2Proof.Machine
end

section
/-! PROOFS. The statements about pi, about the permutation as a whole, and about the tables of both widths. -/

namespace Sys2Proof.Permutation

open Sys2Proof.Machine

/-- Settles O33: pi is read from its destination, and a lane can be read back from where it went. -/
theorem piMovesLanes : Obligations.PiMovesLanes :=
  ⟨fun _ A x y => lane_pi A x y, fun _ A i => pi_toList_getD A i, fun _ _ _ => pi_injective⟩

/-- Settles O34: the grids between the rounds are the folds over fewer rounds, and the zero state is run. -/
theorem permutationIsRoundsOfFiveSteps : Obligations.PermutationIsRoundsOfFiveSteps :=
  ⟨fun _ _ _ => rfl,
    fun A => ⟨afterRounds .kpe200 A, afterRounds_zero _ A, fun ir _ => afterRounds_succ _ A ir,
      keccakF_eq_afterRounds _ A⟩,
    fun A => ⟨afterRounds .kpe1600 A, afterRounds_zero _ A, fun ir _ => afterRounds_succ _ A ir,
      keccakF_eq_afterRounds _ A⟩,
    permute_kpe200_of_widened, permute_kpe1600_eq, permute_kpe200_zero, permute_zero_ne_zero, lane_pi_rho⟩

/-- Settles O39: the rows of R111 and the entries of R105 are compared. -/
theorem narrowTablesAreTruncations : Obligations.NarrowTablesAreTruncations := by
  refine ⟨?_, ?_⟩
  · decide
  · decide

end Sys2Proof.Permutation
end

section
/-! SUPPORT. The bits of the pad (42_padding R163). -/

namespace Sys2Proof.Machine

/-- The bits of the four pad bytes: `0x81` has both end bits, `0x01` the first, `0x80` the last (42_padding R163). -/
theorem padByte_bits (b : Nat) (h : b < 8) :
    ((0x81 : Byte).getLsbD b = true ↔ b = 0 ∨ b = 7) ∧ ((0x01 : Byte).getLsbD b = true ↔ b = 0) ∧
      ((0x80 : Byte).getLsbD b = true ↔ b = 7) := by
  revert b
  decide

end Sys2Proof.Machine
end

section
/-! PROOFS. The statement about the bits of the pad. -/

namespace Sys2Proof.Padding

open Sys2Proof.Machine

/-- Settles O43: by the byte the bit stands in: a pad of one byte, the first, one between, or the last. -/
theorem padIsOneZerosOne : Obligations.PadIsOneZerosOne := by
  intro c buf k n hk hlo hhi
  obtain ⟨h81, h01, h80⟩ := padByte_bits (n % 8) (Nat.mod_lt n (by decide))
  rcases Nat.lt_or_ge k (rateBytes c - 1) with hlong | hsingle
  · have position : n / 8 = k ∨ (k < n / 8 ∧ n / 8 < rateBytes c - 1) ∨ n / 8 = rateBytes c - 1 := by omega
    rcases position with hfirst | ⟨hafter, hbefore⟩ | hlast
    · rw [hfirst, padBlock_getD_first buf hlong, h01]
      omega
    · rw [padBlock_getD_between c buf hafter hbefore]
      simp only [BitVec.ofNat_eq_ofNat, BitVec.getLsbD_zero, Bool.false_eq_true, false_iff]
      omega
    · rw [hlast, padBlock_getD_last buf hlong, h80]
      omega
  · have hk' : k = rateBytes c - 1 := by omega
    have hbyte : n / 8 = k := by omega
    rw [hbyte, padBlock_getD_single buf hk', h81]
    omega

end Sys2Proof.Padding
end

section
/-! SUPPORT. The buffer as a block XORed into the state, for the design of 41_sponge R148 that keeps no buffer. -/

namespace Sys2Proof.Machine

/-- Byte `i` of the buffered block. -/
theorem getD_take_rate (c : Width) (buf : Vector Byte 168) {i : Nat} (hi : i < rateBytes c) :
    (buf.toList.take (rateBytes c)).getD i 0 = buf[i]'(hi.trans_le (rateBytes_le c)) := by
  rw [List.getD_eq_getElem?_getD, List.getElem?_take_of_lt hi, ← List.getD_eq_getElem?_getD, toList_getD_eq_getElem]

/-- The buffered block is 0 behind the buffered bytes. -/
theorem bufBlock_getD_of_bufClean {k : Engine} (h : k.BufClean) {i : Nat} (hc : k.bufcnt.toNat ≤ i)
    (hi : i < rateBytes k.cfgW) : (k.buf.toList.take (rateBytes k.cfgW)).getD i 0 = 0 := by
  rw [getD_take_rate _ _ hi]
  exact h ⟨i, hi.trans_le (rateBytes_le k.cfgW)⟩ hc

/-- A block that has `v` behind the buffered bytes, and is the buffered block elsewhere, is XORed as that block and then
`v`. -/
theorem xorBlock_add_byte {k : Engine} (h : k.BufClean) (hc : k.bufcnt.toNat < rateBytes k.cfgW) {v : Byte}
    {blk : List Byte} (hblk : ∀ i, i < rateBytes k.cfgW →
      blk.getD i 0 = if i = k.bufcnt.toNat then v else (k.buf.toList.take (rateBytes k.cfgW)).getD i 0) :
    xorBlock k.cfgW k.lanes blk = setXor k.cfgW (inPlaceView k).lanes k.bufcnt.toNat v := by
  rw [xorBlock_change hc fun i hi hne => (hblk i hi).trans (if_neg hne), bufBlock_getD_of_bufClean h le_rfl hc,
    hblk _ hc, if_pos rfl]
  exact congrArg _ BitVec.zero_xor

/-! ## One byte -/

theorem inPlaceAbsorbByte_of_lt {k : Engine} (v : Byte) (h : k.bufcnt.toNat + 1 < rateBytes k.cfgW) :
    inPlaceAbsorbByte v k = { k with
      lanes := setXor k.cfgW k.lanes k.bufcnt.toNat v, bufcnt := BitVec.ofNat 8 (k.bufcnt.toNat + 1) } := by
  have e : k.bufcnt + 1 = BitVec.ofNat 8 (k.bufcnt.toNat + 1) := by
    rw [← BitVec.toNat_inj, BitVec.toNat_add, BitVec.toNat_ofNat]
    rfl
  simp only [inPlaceAbsorbByte, if_neg h.ne, e]

theorem inPlaceAbsorbByte_of_full {k : Engine} (v : Byte) (h : k.bufcnt.toNat + 1 = rateBytes k.cfgW) :
    inPlaceAbsorbByte v k = { k with
      lanes := permute k.cfgW (setXor k.cfgW k.lanes k.bufcnt.toNat v), bufcnt := 0 } := by
  simp only [inPlaceAbsorbByte, if_pos h]

/-- An empty buffer leaves the lanes as they are. -/
theorem inPlaceView_of_buf_zero {k : Engine} (h : k.buf = Vector.replicate 168 0) : inPlaceView k = k := by
  have zeros : ∀ i, i < rateBytes k.cfgW → (k.buf.toList.take (rateBytes k.cfgW)).getD i 0 = 0 := fun i hi => by
    rw [getD_take_rate _ _ hi, h, Vector.getElem_replicate]
  rw [inPlaceView, xorBlock_zeros zeros, ← h]

/-- The view commutes with absorbing one byte: below the end of the block the byte joins the buffered block, and at its end
the complete block is permuted (41_sponge R148). -/
theorem inPlaceView_absorbByte (v : Byte) {k : Engine} (hp : k.phase = .absorbing) (h : k.Inv) :
    inPlaceView (absorbByte v k) = inPlaceAbsorbByte v (inPlaceView k) := by
  obtain ⟨-, hcnt, -, -, hbuf, -⟩ := (inv_iff_of_absorbing hp).1 h
  rcases Nat.lt_or_ge (k.bufcnt.toNat + 1) (rateBytes k.cfgW) with hlt | hge
  · have joined := xorBlock_add_byte hbuf hcnt (v := v)
      (blk := (k.buf.setIfInBounds k.bufcnt.toNat v).toList.take (rateBytes k.cfgW)) fun i hi => by
        rw [getD_take_rate _ _ hi, getD_take_rate _ _ hi, Vector.getElem_setIfInBounds]
        simp only [eq_comm]
    rw [absorbByte_of_lt v hlt, inPlaceAbsorbByte_of_lt v (by exact hlt)]
    simp only [inPlaceView, joined]
  · have hfull : k.bufcnt.toNat + 1 = rateBytes k.cfgW := by omega
    have complete := xorBlock_add_byte hbuf hcnt (v := v)
      (blk := k.buf.toList.take k.bufcnt.toNat ++ [v]) fun i hi => by
      have hR := rateBytes_le k.cfgW
      have hlen : (k.buf.toList.take k.bufcnt.toNat).length = k.bufcnt.toNat := by simp; omega
      split
      case isTrue hi' => rw [hi', List.getD_append_right _ _ _ _ hlen.le, hlen, Nat.sub_self]; rfl
      case isFalse hi' =>
        rw [List.getD_append _ _ _ _ (by omega), getD_take_rate _ _ hi, List.getD_eq_getElem _ _ (by omega),
          List.getElem_take, Vector.getElem_toList]
    rw [absorbByte_of_full v hfull, clearBlock_of_bufClean hbuf hcnt.le, inPlaceView_of_buf_zero rfl,
      inPlaceAbsorbByte_of_full v (by exact hfull), absorbBlock, complete]
    rfl

/-! ## The padding -/

theorem getD_set {l : List Byte} {n : Nat} (hn : n < l.length) (v : Byte) (i : Nat) :
    (l.set n v).getD i 0 = if i = n then v else l.getD i 0 := by
  simp only [List.getD_eq_getElem?_getD, List.getElem?_set, hn]
  by_cases h : n = i
  · simp [h]
  · simp [h, Ne.symm h]

/-- The padded block is XORed as the buffered block, then `0x01` behind it, then `0x80` at its end; where both fall on one
byte they make `0x81` (42_padding R161). -/
theorem xorBlock_padBlock {k : Engine} (h : k.BufClean) (hc : k.bufcnt.toNat < rateBytes k.cfgW) :
    xorBlock k.cfgW k.lanes (padBlock k.cfgW k.buf.toList k.bufcnt.toNat) =
      setXor k.cfgW (setXor k.cfgW (inPlaceView k).lanes k.bufcnt.toNat 0x01) (rateBytes k.cfgW - 1) 0x80 := by
  have buffered {i : Nat} (hi : i < k.bufcnt.toNat) : (padBlock k.cfgW k.buf.toList k.bufcnt.toNat).getD i 0 =
      (k.buf.toList.take (rateBytes k.cfgW)).getD i 0 := by
    rw [padBlock_getD_buffered _ hc hi, getD_take_rate _ _ (hi.trans hc), toList_getD_eq_getElem]
  rcases Nat.lt_or_ge k.bufcnt.toNat (rateBytes k.cfgW - 1) with hlong | hsingle
  · have hR := rateBytes_le k.cfgW
    have hlen : k.bufcnt.toNat < (k.buf.toList.take (rateBytes k.cfgW)).length := by simp; omega
    have byte := getD_set hlen 0x01
    have first := xorBlock_add_byte h hc fun i _ => byte i
    have last : ((k.buf.toList.take (rateBytes k.cfgW)).set k.bufcnt.toNat 0x01).getD (rateBytes k.cfgW - 1) 0 = 0 := by
      rw [byte, if_neg hlong.ne', bufBlock_getD_of_bufClean h (by omega) (by omega)]
    rw [← first, xorBlock_change (p := rateBytes k.cfgW - 1) (by omega) fun i hi hne => ?_, last,
      padBlock_getD_last _ hlong]
    · exact congrArg _ BitVec.zero_xor
    · rw [byte]
      rcases lt_trichotomy i k.bufcnt.toNat with hi' | rfl | hi'
      · rw [if_neg hi'.ne, buffered hi']
      · rw [if_pos rfl, padBlock_getD_first _ hlong]
      · rw [if_neg hi'.ne', padBlock_getD_between _ _ hi' (by omega), bufBlock_getD_of_bufClean h hi'.le hi]
  · have hlast : k.bufcnt.toNat = rateBytes k.cfgW - 1 := by omega
    rw [← hlast, setXor_setXor]
    refine xorBlock_add_byte h hc fun i hi => ?_
    split
    case isTrue hi' => rw [hi', padBlock_getD_single _ hlast]; rfl
    case isFalse hi' => exact buffered (by omega)

end Sys2Proof.Machine
end

section
/-! PROOFS. The statement about the design that XORs bytes into the state as they arrive. -/

namespace Sys2Proof.Sponge

open Sys2Proof.Machine

/-- Settles O44: the invariant says that the buffer is 0 behind its bytes, so that a byte more in the block is that byte
XORed into the state. -/
theorem inPlaceAbsorptionRefines : Obligations.InPlaceAbsorptionRefines := by
  refine ⟨fun v k h hp => inPlaceView_absorbByte v hp h, fun k h hp => ?_⟩
  obtain ⟨-, hcnt, -, -, hbuf, -⟩ := (inv_iff_of_absorbing hp).1 h
  exact congrArg (permute k.cfgW) (xorBlock_padBlock hbuf hcnt)

end Sys2Proof.Sponge
end

section
/-! SUPPORT. `ERR` along the lines of a host (60_exceptions R224, R227), and the line that opens a hash. -/

namespace Sys2Proof.Machine

/-! ## `newhasher` (30_encoding R92) -/

/-- The lines behind a `newhasher` of a supported configuration run on the open engine. -/
theorem runLines_newhasher {w : Width} {cap : BitVec 11} {len : BitVec 16} (hv : validConfig w cap len = true) (h : Nat)
    (ls : List HostLine) (s : State) :
    runLines h (newhasher w cap len ++ ls) s =
      runLines h ls { s with engine := initEngine w cap len s.engine } := by
  rw [newhasher, List.singleton_append, runLines_wrCmd (decode_encode_init w cap len), exec_init_of_valid hv,
    andThen_next]

/-! ## Accepted words -/

/-- The line writes no word to CMD, or a command that the engine accepts. -/
def LineAccepted (l : HostLine) (k : Engine) : Prop := ∀ v, l = .wr .cmd v → ∃ i, decode v = .ok i ∧ Accepted i k

/-- Every word the lines write to CMD is a command that is accepted in the state it runs in. -/
def WordsAccepted (h : Nat) (ls : List HostLine) (s : State) : Prop :=
  ∀ before v later, ls = before ++ .wr .cmd v :: later →
    ∃ u i, runLines h before s = .next u ∧ decode v = .ok i ∧ Accepted i u.engine

theorem wordsAccepted_nil (h : Nat) (s : State) : WordsAccepted h [] s := by
  intro before v later e
  exact absurd e.symm (List.append_ne_nil_of_right_ne_nil before (List.cons_ne_nil _ later))

theorem wordsAccepted_cons {h : Nat} {l : HostLine} {ls : List HostLine} {s t : State}
    (hs : serve h (l.access s.kpeBase) s = .next t) :
    WordsAccepted h (l :: ls) s ↔ LineAccepted l s.engine ∧ WordsAccepted h ls t := by
  have hrun (before : List HostLine) : runLines h (l :: before) s = runLines h before t := by
    rw [runLines, hs, andThen_next]
  constructor
  · refine fun hall => ⟨fun v hl => ?_, fun before v later e => ?_⟩
    · obtain ⟨u, i, hu, hi⟩ := hall [] v ls (by rw [hl, List.nil_append])
      cases hu
      exact ⟨i, hi⟩
    · obtain ⟨u, i, hu, hi⟩ := hall (l :: before) v later (by rw [e, List.cons_append])
      exact ⟨u, i, (hrun before).symm.trans hu, hi⟩
  · rintro ⟨hline, hrest⟩ before v later e
    cases before with
    | nil =>
      obtain ⟨rfl, rfl⟩ := List.cons.inj e
      obtain ⟨i, hi⟩ := hline v rfl
      exact ⟨s, i, rfl, hi⟩
    | cons b before =>
      obtain ⟨rfl, hrest'⟩ := List.cons.inj e
      obtain ⟨u, i, hu, hi⟩ := hrest before v later hrest'
      exact ⟨u, i, (hrun before).trans hu, hi⟩

/-! ## `ERR` after a line and after lines -/

/-- A word that is no valid INIT leaves `ERR` NONE exactly when it was NONE and the word is accepted. -/
theorem executeCommand_err {v : Word} (hv : ¬IsValidInit v) (s : State) :
    ∃ t, executeCommand v s = .next t ∧
      (t.engine.err = .none ↔ s.engine.err = .none ∧ ∃ i, decode v = .ok i ∧ Accepted i s.engine) := by
  by_cases hacc : ∃ i, decode v = .ok i ∧ Accepted i s.engine
  · obtain ⟨i, hd, ha⟩ := hacc
    refine ⟨_, (executeCommand_of_ok hd s).trans (exec_of_accepted ha), ?_⟩
    have hinit : ∀ w cap len, i ≠ .init w cap len := by
      rintro w cap len rfl
      exact hv ⟨w, cap, len, hd, ha⟩
    rw [acceptedEngine_err hinit, and_iff_left ⟨i, hd, ha⟩]
  · obtain hacc' | ⟨e, he, hrun⟩ := executeCommand_cases v s
    · exact absurd hacc' hacc
    · refine ⟨_, hrun, ⟨fun hnone => ?_, fun hno => absurd hno.2 hacc⟩⟩
      simp only [noteError] at hnone
      split at hnone
      · exact absurd hnone he
      · exact absurd hnone ‹_›

theorem line_err (h : Nat) {l : HostLine} (hl : ∀ v, l = .wr .cmd v → ¬IsValidInit v) (s : State) :
    ∃ t, serve h (l.access s.kpeBase) s = .next t ∧
      (t.engine.err = .none ↔ s.engine.err = .none ∧ LineAccepted l s.engine) := by
  cases l with
  | rd r => exact ⟨_, serve_readOf h r s, (and_iff_left nofun).symm⟩
  | wr r v =>
    rw [show serve h ((HostLine.wr r v).access s.kpeBase) s = memWrite r v s from serve_writeOf h r v s]
    cases r with
    | cmd =>
      obtain ⟨t, ht, herr⟩ := executeCommand_err (hl v rfl) s
      refine ⟨t, ht, herr.trans (and_congr_right fun _ => ⟨fun hi _ e => ?_, fun hline => hline v rfl⟩)⟩
      cases e
      exact hi
    | din | dout | status | config | outcnt | reserved18 | reserved1C =>
      exact ⟨_, rfl, (and_iff_left nofun).symm⟩

/-- After lines without a valid INIT, `ERR` is NONE exactly when it was NONE and every word was accepted. -/
theorem runLines_err (h : Nat) {ls : List HostLine} (hls : ∀ v, .wr .cmd v ∈ ls → ¬IsValidInit v) (s : State) :
    ∃ t, runLines h ls s = .next t ∧ (t.engine.err = .none ↔ s.engine.err = .none ∧ WordsAccepted h ls s) := by
  induction ls generalizing s with
  | nil => exact ⟨s, rfl, (and_iff_left (wordsAccepted_nil h s)).symm⟩
  | cons l ls ih =>
    obtain ⟨t, ht, herr⟩ := line_err h (fun v hl => hls v (hl ▸ List.mem_cons_self)) s
    obtain ⟨u, hu, herr'⟩ := ih (fun v hv => hls v (List.mem_cons_of_mem l hv)) t
    refine ⟨u, by rw [runLines, ht, andThen_next, hu], ?_⟩
    rw [herr', herr, wordsAccepted_cons ht, and_assoc]

end Sys2Proof.Machine
end

section
/-! PROOFS. The statement about what `ERR` = NONE says of a host's lines. -/

namespace Sys2Proof.Exceptions

open Sys2Proof.Machine

/-- Settles O28: by induction on the lines; behind a `newhasher` the lines run on an engine whose `ERR` is NONE. -/
theorem errNoneMeansAllAccepted : Obligations.ErrNoneMeansAllAccepted := by
  intro h ls s hinit
  have hls : ∀ v, .wr .cmd v ∈ ls → ¬IsValidInit v := by
    rintro v hmem ⟨w, cap, len, hd, hv⟩
    rw [hinit v w cap len hmem hd] at hv
    cases hv
  refine ⟨fun hnone => ?_, fun w cap len hv => ?_⟩
  · obtain ⟨t, ht, herr⟩ := runLines_err h hls s
    exact ⟨t, ht, herr.trans (and_iff_right hnone)⟩
  · obtain ⟨t, ht, herr⟩ := runLines_err h hls { s with engine := initEngine w cap len s.engine }
    simp only [runLines_newhasher hv]
    exact ⟨t, ht, herr.trans (and_iff_right rfl)⟩

end Sys2Proof.Exceptions
end

section
/-! SUPPORT. Whole hashes: the lanes after FINALIZE as the sponge of the message, and the host programs that compute them. -/

namespace Sys2Proof.Machine

/-! ## The sponge of the message -/

/-- The bytes at the front of a buffer that holds a list. -/
theorem take_ofFn_getD (l : List Byte) (h : l.length ≤ 168) :
    (Vector.ofFn fun i : Fin 168 => l.getD i.val 0).toList.take l.length = l := by
  refine List.ext_getElem (by simp [h]) fun i h1 h2 => ?_
  rw [List.getElem_take, Vector.getElem_toList, Vector.getElem_ofFn, List.getD_eq_getElem]

/-- The last block of the padded message: what the complete blocks leave, and the pad (42_padding R163). -/
theorem blocks_padded (c : Width) (m : List Byte) :
    blocks c ((padded c m).length / rateBytes c) (padded c m) =
      blocks c (m.length / rateBytes c) m ++ [m.drop (m.length / rateBytes c * rateBytes c) ++
        (if m.length % rateBytes c = rateBytes c - 1 then [0x81]
         else 0x01 :: (List.replicate (rateBytes c - 2 - m.length % rateBytes c) 0x00 ++ [0x80]))] := by
  have hlen := padded_length c m
  have hq : m.length / rateBytes c * rateBytes c ≤ m.length := Nat.div_mul_le_self _ _
  have hlast : ((padded c m).drop (m.length / rateBytes c * rateBytes c)).length = rateBytes c := by
    rw [List.length_drop, hlen, Nat.succ_mul, Nat.add_sub_cancel_left]
  rw [hlen, Nat.mul_div_cancel _ (rateBytes_pos c), blocks_last, List.take_of_length_le hlast.le, padded_eq,
    blocks_append_right c _ m _ hq, List.drop_append_of_le_length hq]

/-- FINALIZE behind a message absorbed from an empty buffer and zero lanes leaves the sponge of the message. -/
theorem finalizeEngine_absorbBytes_lanes (m : List Byte) {k : Engine} (hl : k.lanes = Vector.replicate 25 0)
    (hb : k.buf = Vector.replicate 168 0) (hc : k.bufcnt = 0) :
    (finalizeEngine (absorbBytes m k)).lanes = spongeState k.cfgW m := by
  have hR := rateBytes_le k.cfgW
  have hdm := Nat.div_add_mod' m.length (rateBytes k.cfgW)
  have hlt := Nat.mod_lt m.length (rateBytes_pos k.cfgW)
  have hrest : m.length - m.length / rateBytes k.cfgW * rateBytes k.cfgW = m.length % rateBytes k.cfgW := by omega
  have hcnt : (BitVec.ofNat 8 (m.length % rateBytes k.cfgW)).toNat = m.length % rateBytes k.cfgW := by
    rw [BitVec.toNat_ofNat]; omega
  have hdrop : (m.drop (m.length / rateBytes k.cfgW * rateBytes k.cfgW)).length = m.length % rateBytes k.cfgW := by
    rw [List.length_drop, hrest]
  have hbuf := take_ofFn_getD (m.drop (m.length / rateBytes k.cfgW * rateBytes k.cfgW)) (by omega)
  rw [hdrop] at hbuf
  rw [absorbBytes_blocks (m.length / rateBytes k.cfgW) m k hb hc (by omega) (by rw [Nat.succ_mul]; omega), hrest,
    finalizeEngine_eq (by exact hcnt.trans_lt hlt)]
  simp only [hcnt, hbuf, hl, spongeState, blocks_padded, List.foldl_append, List.foldl_cons, List.foldl_nil]
  rfl

/-! ## The sizes of a digest -/

theorem sum_min_four (L n : Nat) : ((List.range n).map fun g => min 4 (L - 4 * g)).sum = min (4 * n) L := by
  induction n with
  | zero => simp
  | succ n ih =>
    rw [List.range_succ, List.map_append, List.sum_append, ih, List.map_singleton, List.sum_singleton]
    omega

theorem squeezeSizes_sum (L : Nat) : (squeezeSizes L).sum = L := by
  rw [squeezeSizes, sum_min_four]
  omega

theorem squeezeSizes_bounds {L n : Nat} (h : n ∈ squeezeSizes L) : 1 ≤ n ∧ n ≤ 4 := by
  obtain ⟨g, hg, rfl⟩ := List.mem_map.1 h
  have hg := List.mem_range.1 hg
  omega

theorem squeezeSizes_ne_nil {L : Nat} (h : 1 ≤ L) : squeezeSizes L ≠ [] := by
  intro e
  have hsum := squeezeSizes_sum L
  rw [e, List.sum_nil] at hsum
  omega

theorem validConfig_legalCapacity (c : Width) {len : BitVec 16} (h : 1 ≤ len.toNat) :
    validConfig c (legalCapacity c) len = true := by
  refine (validConfig_iff _ _ _).2 ⟨?_, h⟩
  cases c <;> simp [legalCapacity]

/-- The SQUEEZEs and reads of a `digest` give the host the configured number of bytes of the stream, and end in FINALIZED
(30_encoding R92; 43_commands R192). -/
theorem runLines_squeezeSizes (h : Nat) {s : State} {c : Width} {S : Vector Lane 25} {L : Nat}
    (hp : s.engine.phase = .squeezing) (hcur : s.engine.cur = 0) (hout : s.engine.outcnt = 0)
    (hL : s.engine.cfgOutlen.toNat = L) (hlen : 1 ≤ L) (hw : s.engine.cfgW = c) (hS : s.engine.lanes = S) :
    ∃ t words, runLines h (squeezeLines (squeezeSizes L)) s = .next t ∧
      t.observed = s.observed ++ words.map (fun v => ⟨h, .dout, v⟩) ∧
      digestBytes L words = (List.range L).map (outputByte c S) ∧
      t.engine.phase = .finalized ∧ t.engine.err = s.engine.err := by
  subst hw hS
  have hcount : s.engine.outcnt.toNat + (squeezeSizes L).sum = s.engine.cfgOutlen.toNat := by
    rw [hout, squeezeSizes_sum, hL]
    exact Nat.zero_add _
  have hfit : SqueezesFit (squeezeSizes L) s.engine := ⟨fun _ => squeezeSizes_bounds, hcount.le, fun _ => hp⟩
  have hcur0 : s.engine.cur.toNat = 0 := congrArg BitVec.toNat hcur
  have hbytes := collectBytes_squeezeAll hfit (hcur0.trans_le (Nat.zero_le _))
  simp only [hcur0, Nat.zero_add, squeezeSizes_sum] at hbytes
  exact ⟨_, _, runLines_squeezeLines h hfit, rfl, hbytes, squeezeAll_finalized hfit (squeezeSizes_ne_nil hlen) hcount,
    squeezeAll_err _ _⟩

/-! ## The lines of a hash -/

/-- `update` in ABSORBING absorbs the bytes, and `DIN` holds some word (30_encoding R92). -/
theorem runLines_update (h : Nat) (m : List Byte) {s : State} (hp : s.engine.phase = .absorbing) :
    ∃ d, runLines h (update m) s = .next { s with engine := { absorbBytes m s.engine with din := d } } := by
  obtain ⟨cs, hlines, hbytes, hcs⟩ := update_eq_chunkLines m
  have := runLines_chunkLines h cs s hp hcs
  rwa [← hlines, hbytes] at this

/-- The engine after INIT, a message and FINALIZE, whatever stood in it before; `DIN` is that of the reset engine. -/
def hashedEngine (w : Width) (cap : BitVec 11) (len : BitVec 16) (m : List Byte) : Engine :=
  finalizeEngine (absorbBytes m (initEngine w cap len Engine.reset))

/-- A hash up to FINALIZE, in any state and however its bytes are split: `DIN` apart, the engine depends on the
configuration and the bytes alone (43_commands R194). -/
theorem runLines_hash {w : Width} {cap : BitVec 11} {len : BitVec 16} (hv : validConfig w cap len = true) (h : Nat)
    {cs : List (Word × Nat)} (hcs : ∀ p ∈ cs, 1 ≤ p.2 ∧ p.2 ≤ 4) (s : State) :
    ∃ d, runLines h (newhasher w cap len ++ chunkLines cs ++ [wrCmd .finalize]) s =
      .next { s with engine := { hashedEngine w cap len (chunkBytes cs) with din := d } } := by
  obtain ⟨d, hd⟩ := runLines_chunkLines h cs { s with engine := initEngine w cap len s.engine } rfl hcs
  have hdin : absorbBytes (chunkBytes cs) (initEngine w cap len s.engine) =
      { absorbBytes (chunkBytes cs) (initEngine w cap len Engine.reset) with din := s.engine.din } :=
    absorbBytes_din_update (chunkBytes cs) (initEngine w cap len Engine.reset) s.engine.din
  refine ⟨d, ?_⟩
  rw [List.append_assoc, runLines_newhasher hv, runLines_append, hd, andThen_next, runLines_wrCmd (by decide),
    exec_finalize_of_absorbing (by exact absorbBytes_phase _ _), andThen_next]
  simp only [hdin]
  rfl

/-! ## Accesses of several hosts (20_memory R68) -/

theorem serveAll_append (xs ys : List (Nat × Access)) (s : State) :
    serveAll (xs ++ ys) s = andThen (serveAll xs s) (serveAll ys) := by
  induction xs generalizing s with
  | nil => rfl
  | cons x xs ih =>
    simp only [List.cons_append, serveAll]
    cases serve x.1 x.2 s with
    | next t => exact ih t
    | fault f => rfl
    | refused r => rfl

/-- The accesses of a host's lines are its program: no access moves the base address. -/
theorem serveAll_lines (h : Nat) (ls : List HostLine) (s : State) :
    serveAll (ls.map fun l => (h, l.access s.kpeBase)) s = runLines h ls s := by
  induction ls generalizing s with
  | nil => rfl
  | cons l ls ih =>
    simp only [List.map_cons, serveAll, runLines]
    cases hs : serve h (l.access s.kpeBase) s with
    | next t =>
      obtain ⟨hbase, -⟩ := serve_extends hs
      rw [andThen_next, andThen_next, ← ih t, hbase]
    | fault f => rfl
    | refused r => rfl

/-- Whole updates of several hosts absorb their bytes in the order of the updates (60_exceptions R237). -/
theorem serveAll_updates {parts : List (Nat × List Byte)} {s : State} (hp : s.engine.phase = .absorbing) :
    ∃ d, serveAll (parts.flatMap fun p => (update p.2).map fun l => (p.1, l.access s.kpeBase)) s =
      .next { s with engine := { absorbBytes (parts.flatMap Prod.snd) s.engine with din := d } } := by
  induction parts generalizing s with
  | nil => exact ⟨s.engine.din, rfl⟩
  | cons p parts ih =>
    obtain ⟨d, hd⟩ := runLines_update p.1 p.2 hp
    obtain ⟨e, he⟩ := ih (s := { s with engine := { absorbBytes p.2 s.engine with din := d } })
      ((absorbBytes_phase p.2 s.engine).trans hp)
    refine ⟨e, ?_⟩
    rw [List.flatMap_cons, List.flatMap_cons, serveAll_append, serveAll_lines, hd, andThen_next]
    refine he.trans ?_
    simp only [absorbBytes_append, absorbBytes_din_update]

end Sys2Proof.Machine
end

section
/-! PROOFS. The statements about whole hashes: the digest program, the split of the bytes, what came before, and several
hosts. -/

namespace Sys2Proof.Hashing

open Sys2Proof.Machine

/-- Settles O57: after FINALIZE the lanes are the sponge of the message, and the SQUEEZEs of `digest` read its stream. -/
theorem digestProgramComputesSponge : Obligations.DigestProgramComputesSponge := by
  intro h s c len m hlen
  obtain ⟨cs, hlines, hbytes, hcs⟩ := update_eq_chunkLines m
  obtain ⟨d, hhash⟩ := runLines_hash (validConfig_legalCapacity c hlen) h hcs s
  rw [hbytes] at hhash
  have hw : (hashedEngine c (legalCapacity c) len m).cfgW = c := absorbBytes_cfgW m _
  have hout : (hashedEngine c (legalCapacity c) len m).cfgOutlen = len := absorbBytes_cfgOutlen m _
  have herr : (hashedEngine c (legalCapacity c) len m).err = .none := absorbBytes_err m _
  have hlanes : (hashedEngine c (legalCapacity c) len m).lanes = spongeState c m :=
    finalizeEngine_absorbBytes_lanes m rfl rfl rfl
  obtain ⟨t, words, hrun, hobserved, hdigest, hphase, herr'⟩ := runLines_squeezeSizes h
    (s := { s with engine := { hashedEngine c (legalCapacity c) len m with din := d } }) rfl rfl rfl
    (congrArg BitVec.toNat hout) hlen hw hlanes
  have hprogram : newhasher c (legalCapacity c) len ++ update m ++ digest len.toNat =
      newhasher c (legalCapacity c) len ++ chunkLines cs ++ [wrCmd .finalize] ++
        squeezeLines (squeezeSizes len.toNat) := by
    rw [hlines, digest, List.append_assoc _ [_], List.singleton_append]
  refine ⟨t, words, ?_, hobserved, hdigest, hphase, herr'.trans herr⟩
  rw [hprogram, runLines_append, hhash, andThen_next, hrun]

/-- Settles O58: both lists absorb the same bytes. -/
theorem chunkingDoesNotMatter : Obligations.ChunkingDoesNotMatter := by
  intro h s cs ds hp hcs hds hbytes
  obtain ⟨d, hd⟩ := runLines_chunkLines h cs s hp hcs
  obtain ⟨e, he⟩ := runLines_chunkLines h ds s hp hds
  exact ⟨_, _, hd, he, by rw [hbytes]; rfl⟩

/-- Settles O59: INIT leaves only `DIN` of the engine before it, and both lists absorb the same bytes. -/
theorem hashingIsDeterministic : Obligations.HashingIsDeterministic := by
  intro g h s t w cap len cs ds hv hcs hds hbytes
  obtain ⟨d, hd⟩ := runLines_hash hv g hcs s
  obtain ⟨e, he⟩ := runLines_hash hv h hds t
  exact ⟨_, _, hd, he, by rw [hbytes]; rfl⟩

/-- Settles O60: the accesses of an update are its lines, and the updates absorb their bytes in order. -/
theorem sharedUpdatesAreOneUpdate : Obligations.SharedUpdatesAreOneUpdate := by
  intro g s parts hp
  obtain ⟨d, hd⟩ := serveAll_updates (parts := parts) hp
  obtain ⟨e, he⟩ := runLines_update g (parts.flatMap Prod.snd) hp
  exact ⟨_, _, hd, he, rfl⟩

end Sys2Proof.Hashing
end
